-- ==== Sys2Proof/Word.lean ====
section
/-! DEFINITION. The value types of the CHIP-8 core (00_scope.md R9, 30_encoding.md R81). -/

namespace Sys2Proof

/-- `u8`: a V register, a timer, a memory byte (R9). -/
abbrev Byte := BitVec 8

/-- `u16`: I, pc, a stack entry, an opcode (R9). -/
abbrev Word := BitVec 16

/-- An address field NNN of an opcode (R81). -/
abbrev Addr12 := BitVec 12

/-- A register index X or Y: every 4-bit value names a register (10_state.md R21). -/
abbrev RegIdx := Fin 16

/-- The key vector: bit k is key k (10_state.md R41). -/
abbrev Keys := BitVec 16

/-- The display buffer: 32 rows of 64 one-bit columns. Cell i of the spec is column `i mod 64` of row `i / 64` (10_state.md R38). -/
abbrev Display := Vector (BitVec 64) 32

/-- The font: 16 glyphs of 5 bytes, one byte per row (20_memory.md R68, R79). -/
abbrev Font := Vector (Vector Byte 5) 16

/-- The index of VF, the flag register (10_state.md R22). -/
abbrev vf : RegIdx := 15

end Sys2Proof
end

