-- ==== Sys2Proof/Machine/Flags.lean ====
section
/-! DEFINITION. The results and the VF values of the ALU, from exact integers narrowed at the end (42_alu.md R140). -/

namespace Sys2Proof.Machine

/-- A flag as VF holds it: 1 or 0. -/
def flagByte (b : Bool) : Byte := if b then 1 else 0

/-- (a + b) mod 256 (R142, R147). -/
def addResult (a b : Byte) : Byte := BitVec.ofNat 8 (a.toNat + b.toNat)

/-- Carry: 1 when the unbounded sum exceeds 255 (R147). -/
def carryFlag (a b : Byte) : Byte := flagByte (decide (a.toNat + b.toNat > 255))

/-- (a - b) mod 256: `a - b + 256` when `a < b` (R140, R149). -/
def subResult (a b : Byte) : Byte := BitVec.ofInt 8 ((a.toNat : Int) - (b.toNat : Int))

/-- No-borrow: 1 when the minuend is at least the subtrahend (R149, R151). -/
def noBorrowFlag (a b : Byte) : Byte := flagByte (decide (a.toNat ≥ b.toNat))

/-- a >> 1 (R152). -/
def shrResult (a : Byte) : Byte := a >>> 1

/-- The bit shifted out to the right: old bit 0 (R152). -/
def shrFlag (a : Byte) : Byte := a &&& 1

/-- (a << 1) mod 256 (R156). -/
def shlResult (a : Byte) : Byte := a <<< 1

/-- The bit shifted out to the left: old bit 7 (R156). -/
def shlFlag (a : Byte) : Byte := (a >>> 7) &&& 1

end Sys2Proof.Machine
end

