-- ==== Sys2Proof/Syntax.lean ====
section
/-! DEFINITION. The 34 instructions of spec/opcode_table.json, in its order, one constructor each (30_encoding.md R91).
Register operands are written x, y; NN is kk; N is n; NNN is nnn (R81). -/

namespace Sys2Proof

inductive Instr where
  /-- 00E0 CLS: clear the display (R190) -/
  | cls
  /-- 00EE RET: return from subroutine (R120) -/
  | ret
  /-- 1NNN JP nnn: jump (R121) -/
  | jp (nnn : Addr12)
  /-- 2NNN CALL nnn: call subroutine (R122) -/
  | call (nnn : Addr12)
  /-- 3XNN SE Vx, kk: skip if equal (R123) -/
  | seImm (x : RegIdx) (kk : Byte)
  /-- 4XNN SNE Vx, kk: skip if different (R124) -/
  | sneImm (x : RegIdx) (kk : Byte)
  /-- 5XY0 SE Vx, Vy: skip if equal (R125) -/
  | seReg (x y : RegIdx)
  /-- 6XNN LD Vx, kk: load immediate (R141) -/
  | ldImm (x : RegIdx) (kk : Byte)
  /-- 7XNN ADD Vx, kk: add immediate, no flag (R142) -/
  | addImm (x : RegIdx) (kk : Byte)
  /-- 8XY0 LD Vx, Vy: copy (R143) -/
  | ldReg (x y : RegIdx)
  /-- 8XY1 OR Vx, Vy (R144) -/
  | orReg (x y : RegIdx)
  /-- 8XY2 AND Vx, Vy (R145) -/
  | andReg (x y : RegIdx)
  /-- 8XY3 XOR Vx, Vy (R146) -/
  | xorReg (x y : RegIdx)
  /-- 8XY4 ADD Vx, Vy: carry in VF (R147) -/
  | addReg (x y : RegIdx)
  /-- 8XY5 SUB Vx, Vy: no-borrow in VF (R149) -/
  | subReg (x y : RegIdx)
  /-- 8XY6 SHR Vx: the Y field is encoded and not read (R152) -/
  | shrReg (x y : RegIdx)
  /-- 8XY7 SUBN Vx, Vy: Vy minus Vx (R154) -/
  | subnReg (x y : RegIdx)
  /-- 8XYE SHL Vx: the Y field is encoded and not read (R156) -/
  | shlReg (x y : RegIdx)
  /-- 9XY0 SNE Vx, Vy: skip if different (R126) -/
  | sneReg (x y : RegIdx)
  /-- ANNN LD I, nnn (R172) -/
  | ldI (nnn : Addr12)
  /-- BNNN JP V0, nnn: jump to NNN + V0 (R128) -/
  | jpV0 (nnn : Addr12)
  /-- CXNN RND Vx, kk: random byte AND kk (R158) -/
  | rnd (x : RegIdx) (kk : Byte)
  /-- DXYN DRW Vx, Vy, n: draw a sprite of n rows (R192) -/
  | drw (x y : RegIdx) (n : Fin 16)
  /-- EX9E SKP Vx: skip if key pressed (R210) -/
  | skp (x : RegIdx)
  /-- EXA1 SKNP Vx: skip if key not pressed (R211) -/
  | sknp (x : RegIdx)
  /-- FX07 LD Vx, DT (R213) -/
  | ldVxDt (x : RegIdx)
  /-- FX0A LD Vx, K: wait for a key press (R215) -/
  | ldVxK (x : RegIdx)
  /-- FX15 LD DT, Vx (R219) -/
  | ldDtVx (x : RegIdx)
  /-- FX18 LD ST, Vx (R220) -/
  | ldStVx (x : RegIdx)
  /-- FX1E ADD I, Vx (R174) -/
  | addI (x : RegIdx)
  /-- FX29 LD F, Vx: point I at a glyph (R176) -/
  | ldF (x : RegIdx)
  /-- FX33 LD B, Vx: store decimal digits (R178) -/
  | ldB (x : RegIdx)
  /-- FX55 LD [I], Vx: store V0 to Vx (R180) -/
  | storeRegs (x : RegIdx)
  /-- FX65 LD Vx, [I]: load V0 to Vx (R182) -/
  | loadRegs (x : RegIdx)
deriving DecidableEq, Repr

end Sys2Proof
end

