-- ==== Sys2Proof/Decode.lean ====
section
/-! DEFINITION. The decoder, total on any bytes, and the encoder (30_encoding.md). An unknown word is reported by name, with the
word (R88). -/

namespace Sys2Proof

/-- What the decoder finds at the front of a byte sequence. -/
inductive Decoded where
  /-- an instruction of the table, and the bytes after it -/
  | instr (i : Instr) (rest : List Byte)
  /-- a whole word that matches no row of the table (R88), and the bytes after it -/
  | unknownWord (w : Word) (rest : List Byte)
  /-- fewer than two bytes: no whole opcode (R80); the core itself always fetches two -/
  | truncated (bytes : List Byte)
deriving DecidableEq, Repr

/-- The leading nibble, w[15:12] (R81). -/
def fieldOp (w : Word) : Nat := (w.extractLsb' 12 4).toNat

/-- X, w[11:8] (R81). -/
def fieldX (w : Word) : RegIdx := ⟨(w.extractLsb' 8 4).toNat, (w.extractLsb' 8 4).isLt⟩

/-- Y, w[7:4] (R81). -/
def fieldY (w : Word) : RegIdx := ⟨(w.extractLsb' 4 4).toNat, (w.extractLsb' 4 4).isLt⟩

/-- N, w[3:0] (R81). -/
def fieldN (w : Word) : Fin 16 := ⟨(w.extractLsb' 0 4).toNat, (w.extractLsb' 0 4).isLt⟩

/-- NN, w[7:0] (R81). -/
def fieldNN (w : Word) : Byte := w.extractLsb' 0 8

/-- NNN, w[11:0] (R81). -/
def fieldNNN (w : Word) : Addr12 := w.extractLsb' 0 12

/-- Family 0x0: all 16 bits are fixed (R85). -/
def decodeFamily0 (w : Word) : Option Instr :=
  if w = 0x00E0 then some .cls
  else if w = 0x00EE then some .ret
  else none

/-- Families 0x5 and 0x9: the low nibble must be 0 (R86). -/
def decodeLowZero (w : Word) (i : Instr) : Option Instr :=
  if fieldN w = 0 then some i else none

/-- Family 0x8: the low nibble selects (R85). -/
def decodeFamily8 (w : Word) : Option Instr :=
  let x := fieldX w
  let y := fieldY w
  match (fieldN w).val with
  | 0x0 => some (.ldReg x y)
  | 0x1 => some (.orReg x y)
  | 0x2 => some (.andReg x y)
  | 0x3 => some (.xorReg x y)
  | 0x4 => some (.addReg x y)
  | 0x5 => some (.subReg x y)
  | 0x6 => some (.shrReg x y)
  | 0x7 => some (.subnReg x y)
  | 0xE => some (.shlReg x y)
  | _ => none

/-- Family 0xE: the low byte selects (R85). -/
def decodeFamilyE (w : Word) : Option Instr :=
  if fieldNN w = 0x9E then some (.skp (fieldX w))
  else if fieldNN w = 0xA1 then some (.sknp (fieldX w))
  else none

/-- Family 0xF: the low byte selects (R85). -/
def decodeFamilyF (w : Word) : Option Instr :=
  let x := fieldX w
  if fieldNN w = 0x07 then some (.ldVxDt x)
  else if fieldNN w = 0x0A then some (.ldVxK x)
  else if fieldNN w = 0x15 then some (.ldDtVx x)
  else if fieldNN w = 0x18 then some (.ldStVx x)
  else if fieldNN w = 0x1E then some (.addI x)
  else if fieldNN w = 0x29 then some (.ldF x)
  else if fieldNN w = 0x33 then some (.ldB x)
  else if fieldNN w = 0x55 then some (.storeRegs x)
  else if fieldNN w = 0x65 then some (.loadRegs x)
  else none

/-- Decoding one opcode: dispatch on the leading nibble, then inside families 0x0, 0x5, 0x8, 0x9, 0xE and 0xF (R84 to R87).
`none` is an unknown word. -/
def decodeWord (w : Word) : Option Instr :=
  match fieldOp w with
  | 0x0 => decodeFamily0 w
  | 0x1 => some (.jp (fieldNNN w))
  | 0x2 => some (.call (fieldNNN w))
  | 0x3 => some (.seImm (fieldX w) (fieldNN w))
  | 0x4 => some (.sneImm (fieldX w) (fieldNN w))
  | 0x5 => decodeLowZero w (.seReg (fieldX w) (fieldY w))
  | 0x6 => some (.ldImm (fieldX w) (fieldNN w))
  | 0x7 => some (.addImm (fieldX w) (fieldNN w))
  | 0x8 => decodeFamily8 w
  | 0x9 => decodeLowZero w (.sneReg (fieldX w) (fieldY w))
  | 0xA => some (.ldI (fieldNNN w))
  | 0xB => some (.jpV0 (fieldNNN w))
  | 0xC => some (.rnd (fieldX w) (fieldNN w))
  | 0xD => some (.drw (fieldX w) (fieldY w) (fieldN w))
  | 0xE => decodeFamilyE w
  | 0xF => decodeFamilyF w
  | _ => none

/-- The opcode of two fetched bytes: big-endian (20_memory.md R65, 40_cycle.md R102). -/
def opcodeOf (hi lo : Byte) : Word := (hi.setWidth 16 <<< 8) ||| lo.setWidth 16

/-- The decoder on bytes as they lie in memory. -/
def decode : List Byte → Decoded
  | hi :: lo :: rest =>
    match decodeWord (opcodeOf hi lo) with
    | some i => .instr i rest
    | none => .unknownWord (opcodeOf hi lo) rest
  | bytes => .truncated bytes

/-- The high byte of a word, stored at the lower address (20_memory.md R65). -/
def highByte (w : Word) : Byte := w.extractLsb' 8 8

/-- The low byte of a word. -/
def lowByte (w : Word) : Byte := w.extractLsb' 0 8

/-- A word's two bytes as the hardware stores them. -/
def wordBytes (w : Word) : List Byte := [highByte w, lowByte w]

/-- A register index as its 4-bit field. -/
def regField (x : RegIdx) : BitVec 4 := BitVec.ofNat 4 x.val

/-- Format A: op, NNN (R82). -/
def formatA (op : BitVec 4) (nnn : Addr12) : Word := op ++ nnn

/-- Format XK: op, X, NN (R82). -/
def formatXK (op : BitVec 4) (x : RegIdx) (kk : Byte) : Word := op ++ regField x ++ kk

/-- Formats XY and XYN: op, X, Y, low nibble (R82). -/
def formatXY (op : BitVec 4) (x y : RegIdx) (n : Fin 16) : Word := op ++ regField x ++ regField y ++ regField n

/-- The encoder: each instruction's word, from the formats and fixed bits of R82 and the opcode table. -/
def encode : Instr → Word
  | .cls => 0x00E0
  | .ret => 0x00EE
  | .jp nnn => formatA 0x1 nnn
  | .call nnn => formatA 0x2 nnn
  | .seImm x kk => formatXK 0x3 x kk
  | .sneImm x kk => formatXK 0x4 x kk
  | .seReg x y => formatXY 0x5 x y 0x0
  | .ldImm x kk => formatXK 0x6 x kk
  | .addImm x kk => formatXK 0x7 x kk
  | .ldReg x y => formatXY 0x8 x y 0x0
  | .orReg x y => formatXY 0x8 x y 0x1
  | .andReg x y => formatXY 0x8 x y 0x2
  | .xorReg x y => formatXY 0x8 x y 0x3
  | .addReg x y => formatXY 0x8 x y 0x4
  | .subReg x y => formatXY 0x8 x y 0x5
  | .shrReg x y => formatXY 0x8 x y 0x6
  | .subnReg x y => formatXY 0x8 x y 0x7
  | .shlReg x y => formatXY 0x8 x y 0xE
  | .sneReg x y => formatXY 0x9 x y 0x0
  | .ldI nnn => formatA 0xA nnn
  | .jpV0 nnn => formatA 0xB nnn
  | .rnd x kk => formatXK 0xC x kk
  | .drw x y n => formatXY 0xD x y n
  | .skp x => formatXK 0xE x 0x9E
  | .sknp x => formatXK 0xE x 0xA1
  | .ldVxDt x => formatXK 0xF x 0x07
  | .ldVxK x => formatXK 0xF x 0x0A
  | .ldDtVx x => formatXK 0xF x 0x15
  | .ldStVx x => formatXK 0xF x 0x18
  | .addI x => formatXK 0xF x 0x1E
  | .ldF x => formatXK 0xF x 0x29
  | .ldB x => formatXK 0xF x 0x33
  | .storeRegs x => formatXK 0xF x 0x55
  | .loadRegs x => formatXK 0xF x 0x65

/-- The word of a table row given in `nbits` bits; the bits above are 0. Every row of this table is one 16-bit word, so the
table's numbering is the opcode's own (R80, R81). -/
def tableWord (nbits w : Nat) : Word := BitVec.ofNat 16 (w % 2 ^ nbits)

/-- The instruction the decoder reads from a table word, laid out as the hardware stores it. -/
def decodeTableWord (nbits w : Nat) : Option Instr :=
  match decode (wordBytes (tableWord nbits w)) with
  | .instr i _ => some i
  | .unknownWord _ _ => none
  | .truncated _ => none

end Sys2Proof
end

