-- ==== Sys2Proof/Config.lean ====
section
/-! DEFINITION. What an implementation fixes (00_scope.md R7, 92_eei_decisions.md "OPEN parameters") and the free values
the spec leaves open. The parameters are plain data carried in State, so a claim about every state is a claim about every
value of them (log 4); the free values are constants without a body (log 3, log 9). -/

namespace Sys2Proof

/-- LOW_WRITE_POLICY: what FX33 and FX55 do with a byte below 0x200 (20_memory.md R67). -/
inductive LowWritePolicy where
  /-- nothing is written and ProtectionFault halts the core (the spec's default) -/
  | fault
  /-- the bytes below 0x200 are not written, the others are -/
  | discard
  /-- the byte is written like any other -/
  | store
deriving DecidableEq, Repr

/-- KEY_INDEX_POLICY: what EX9E and EXA1 do with V[X] above 15 (45_keys_timers.md R212). -/
inductive KeyIndexPolicy where
  /-- KeyRangeFault halts the core (the spec's default) -/
  | fault
  /-- the low nibble of V[X] is the key index -/
  | lowNibble
  /-- the key reads as not pressed -/
  | notPressed
deriving DecidableEq, Repr

/-- The parameters of the model that are not state (10_state.md R49). -/
structure Params where
  font     : Font
  lowWrite : LowWritePolicy
  keyIndex : KeyIndexPolicy
deriving DecidableEq, Repr

/-- The default FONT of 20_memory.md R79. PRESUMED: the spec takes the bytes from general knowledge (log 11). -/
def defaultFont : Font :=
  #v[#v[0xF0, 0x90, 0x90, 0x90, 0xF0], #v[0x20, 0x60, 0x20, 0x20, 0x70],
     #v[0xF0, 0x10, 0xF0, 0x80, 0xF0], #v[0xF0, 0x10, 0xF0, 0x10, 0xF0],
     #v[0x90, 0x90, 0xF0, 0x10, 0x10], #v[0xF0, 0x80, 0xF0, 0x10, 0xF0],
     #v[0xF0, 0x80, 0xF0, 0x90, 0xF0], #v[0xF0, 0x10, 0x20, 0x40, 0x40],
     #v[0xF0, 0x90, 0xF0, 0x90, 0xF0], #v[0xF0, 0x90, 0xF0, 0x10, 0xF0],
     #v[0xF0, 0x90, 0xF0, 0x90, 0x90], #v[0xE0, 0x90, 0xE0, 0x90, 0xE0],
     #v[0xF0, 0x80, 0x80, 0x80, 0xF0], #v[0xE0, 0x90, 0x90, 0x90, 0xE0],
     #v[0xF0, 0x80, 0xF0, 0x80, 0xF0], #v[0xF0, 0x80, 0xF0, 0x80, 0x80]]

/-- The parameters at their defaults (00_scope.md R7). -/
def Params.default : Params := { font := defaultFont, lowWrite := .fault, keyIndex := .fault }

/-- FREE VALUE: the random byte of the n-th draw, where the host has not supplied one. Nothing constrains it
(42_alu.md R158, R159; decision D14; log 3). -/
opaque Config.freeByte : Nat → Byte

/-- FREE VALUE: the 16-bit `info` recorded for a LoadError whose declared length needs more than 16 bits; the spec states
no value there (60_exceptions.md R241; log 9). -/
opaque Config.oversizeInfo : Nat → Word

end Sys2Proof
end

