-- ==== Sys2Proof/Machine/State.lean ====
section
/-! DEFINITION. The state of the core as plain data (10_state.md R20), the host's requests, the reasons a step can stop, and the
state right after reset (70_reset_and_hazards.md R270). -/

namespace Sys2Proof.Machine

/-- The fault kinds (60_exceptions.md R240). AddressFault is never raised and has no code (R251). -/
inductive FaultCode where
  /-- code 1: unknown word; not fatal -/
  | decode
  /-- code 2: call with sp = 16; fatal -/
  | stackOverflow
  /-- code 3: return with sp = 0; fatal -/
  | stackUnderflow
  /-- code 4: write below 0x200 under LOW_WRITE_POLICY = fault; fatal -/
  | protection
  /-- code 5: key index above 15 under KEY_INDEX_POLICY = fault; fatal -/
  | keyRange
  /-- code 6: the image cannot be loaded; fatal to startup -/
  | load
deriving DecidableEq, Repr

/-- The record of one fault (R241). -/
structure FaultRecord where
  code   : FaultCode
  pc     : Word
  opcode : Word
  info   : Word
deriving DecidableEq, Repr

/-- The executor's three states (10_state.md R36). -/
inductive Executor where
  /-- each cycle fetches and executes one instruction -/
  | running
  /-- FX0A waits for a key press to store in Vx -/
  | awaitingKey (x : RegIdx)
  /-- a fatal fault has stopped the core -/
  | halted (f : FaultRecord)
deriving DecidableEq, Repr

/-- What the host hands to `load` (70_reset_and_hazards.md R272, R274). -/
inductive LoadSource where
  /-- a readable image; its length is the number of its bytes -/
  | image (bytes : List Byte)
  /-- the source could not be read; the length the host declared for it -/
  | unreadable (declared : Nat)
deriving DecidableEq, Repr

/-- Why a load failed (60_exceptions.md R240). -/
inductive LoadCause where
  | empty
  | oversized
  | unreadable
deriving DecidableEq, Repr

/-- The interface output load_error: cause and declared length (10_state.md R43, 60_exceptions.md R240). -/
structure LoadError where
  cause  : LoadCause
  length : Nat
deriving DecidableEq, Repr

/-- The five kinds of step the host asks for (40_cycle.md R100). -/
inductive HostStep where
  /-- one executor cycle with this key vector; `rnd` is the random byte for CXNN, or none where the host leaves the draw to a
  source the spec does not give (log 3) -/
  | cycle (keys : Keys) (rnd : Option Byte)
  /-- one 60 Hz timer decrement -/
  | tick
  /-- the host reads the display buffer -/
  | dispRead
  /-- initialise everything -/
  | reset
  /-- program load -/
  | load (src : LoadSource)
deriving DecidableEq, Repr

/-- Memory: the bytes that differ from the reset contents, by rising address (the canonical form is Memory.wf). -/
abbrev Memory := List Host.Cell

structure State where
  /-- V0 to VF (R21) -/
  v         : Vector Byte 16
  /-- the address register I (R26) -/
  i         : Word
  /-- the program counter (R28) -/
  pc        : Word
  /-- the next free stack slot, 0 to 16 (R33) -/
  sp        : Fin 17
  /-- the saved return addresses (R33) -/
  stack     : Vector Word 16
  /-- the delay timer DT (R30) -/
  dt        : Byte
  /-- the sound timer ST (R30) -/
  st        : Byte
  /-- memory (20_memory.md R60) -/
  mem       : Memory
  /-- the display buffer (R38) -/
  disp      : Display
  /-- the display dirty flag (R39) -/
  dirty     : Bool
  /-- the spec's `exec` (R36) -/
  executor  : Executor
  /-- the key vector of the previous cycle taken (R42) -/
  keysPrev  : Keys
  /-- the fault channel, oldest first (R45) -/
  faults    : List FaultRecord
  /-- the recorded length of the image (R46) -/
  romLen    : Nat
  /-- the interface output load_error (R43; log 17) -/
  loadError : Option LoadError
  /-- the parameters; no step changes them (R49; log 4) -/
  params    : Params
  /-- the model's own: host requests not yet taken, oldest first (log 1) -/
  schedule  : List HostStep
  /-- an input: the key vector of the current cycle (R41; log 2) -/
  keys      : Keys
  /-- an input: the random byte of the current cycle, where the host supplies it (R43; log 3) -/
  rnd       : Option Byte
  /-- the model's own: how many random bytes have been drawn (log 3) -/
  draws     : Nat
  /-- the model's own: no step has been taken since reset, so a load is admitted (R272; log 6) -/
  justReset : Bool
deriving DecidableEq, Repr

/-- The reasons a step could stop the machine with a fault outcome: there are none. Every fault the spec names leaves a state the
spec describes (60_exceptions.md R243, R246), so it is a next state, never a fault outcome. Safe: no behaviour is cut off
(log 16). -/
inductive Fault : Type where
deriving DecidableEq, Repr

/-- The reasons a step is outside the model. -/
inductive Refusal where
  /-- raised only by an arm of exec whose instruction has no meaning yet; there is none left. Safe. -/
  | notModelled (mnemonic : String)
  /-- raised by `step` when the host asks for a `load` that is not the first step after reset: the spec refuses it
  (70_reset_and_hazards.md R272, decision D22). Safe: the machine stops where the spec says nothing (log 6). -/
  | loadNotAfterReset
deriving DecidableEq, Repr

/-- The state right after reset with the given parameters (R270). The source document gives no reset value; these are the spec's
decisions D1 to D3 and D9 (log 5). Memory lists nothing: it reads as its reset contents (20_memory.md R69). -/
def State.resetWith (p : Params) : State where
  v         := Vector.replicate 16 0
  i         := 0x000
  pc        := 0x200
  sp        := 0
  stack     := Vector.replicate 16 0
  dt        := 0
  st        := 0
  mem       := []
  disp      := Vector.replicate 32 0
  dirty     := false
  executor  := .running
  keysPrev  := 0
  faults    := []
  romLen    := 0
  loadError := none
  params    := p
  schedule  := []
  keys      := 0
  rnd       := none
  draws     := 0
  justReset := true

/-- The machine right after reset, with the parameters at their defaults. -/
def State.reset : State := State.resetWith Params.default

end Sys2Proof.Machine
end

