-- ==== Sys2Proof/Machine/Ops.lean ====
section
/-! DEFINITION. The shared operations over memory, registers, the stack and the fault channel. -/

namespace Sys2Proof.Machine

/-! ## Addresses and memory (20_memory.md) -/

/-- The 12-bit mask of every address and of every pc write (R62; 10_state.md R28). -/
def maskAddr (a : Word) : Word := a &&& 0xFFF

/-- FONT_BASE (00_scope.md R7). -/
def fontBase : Nat := 0x050

/-- PROG_BASE: no instruction may write below it (R67). -/
def progBase : Nat := 0x200

/-- What an address that memory does not list reads as: the reset contents, FONT at 0x050..0x09F and 0x00 elsewhere (R69). -/
def unlistedByte (font : Font) (a : Nat) : Byte :=
  if h : 0x050 ≤ a ∧ a < 0x0A0 then
    (font[(a - 0x050) / 5]'(by omega))[(a - 0x050) % 5]'(by omega)
  else 0

/-- The byte at address `a`. -/
def Memory.read (font : Font) : Memory → Nat → Byte
  | [], a => unlistedByte font a
  | (b, v) :: rest, a => if b = a then v else Memory.read font rest a

/-- List the byte only where it differs from what an unlisted address reads as. -/
def Memory.cons (font : Font) (a : Nat) (v : Byte) (rest : Memory) : Memory :=
  if v = unlistedByte font a then rest else (a, v) :: rest

/-- Store the byte `v` at address `a`, keeping the canonical form. -/
def Memory.write (font : Font) (a : Nat) (v : Byte) : Memory → Memory
  | [] => Memory.cons font a v []
  | (b, w) :: rest =>
    if a < b then Memory.cons font a v ((b, w) :: rest)
    else if a = b then Memory.cons font a v rest
    else (b, w) :: Memory.write font a v rest

/-- All addresses of `m` are at least `lo` and below 0x1000, strictly rising, and no entry repeats an unlisted byte. -/
def Memory.wfFrom (font : Font) : Nat → Memory → Bool
  | _, [] => true
  | lo, (a, v) :: rest => decide (lo ≤ a ∧ a < 0x1000 ∧ v ≠ unlistedByte font a) && Memory.wfFrom font (a + 1) rest

/-- The canonical form of memory. -/
def Memory.wf (font : Font) (m : Memory) : Bool := Memory.wfFrom font 0 m

/-- MemRead(a, 1) (R62). -/
def State.readByte (s : State) (a : Word) : Byte := Memory.read s.params.font s.mem (maskAddr a).toNat

/-- Store a byte at a masked address, whatever the address (the loader's store, and the last step of memWrite). -/
def State.pokeByte (s : State) (a : Word) (v : Byte) : State :=
  { s with mem := Memory.write s.params.font (maskAddr a).toNat v s.mem }

/-- Store bytes at `a`, `a + 1`, ... as pokeByte does. -/
def State.pokeBytes (s : State) (a : Word) : List Byte → State
  | [] => s
  | v :: vs => (s.pokeByte a v).pokeBytes (a + 1) vs

/-- The address lies below 0x200, where only the font load may write (R67). -/
def isLow (a : Word) : Bool := decide ((maskAddr a).toNat < progBase)

/-- MemWrite(a, 1, v) of an instruction whose targets have passed its check: a byte below 0x200 is written only under
LOW_WRITE_POLICY = store (R63, R67). -/
def State.memWrite (s : State) (a : Word) (v : Byte) : State :=
  if isLow a && s.params.lowWrite != .store then s else s.pokeByte a v

/-- MemWrite of consecutive bytes from `a`, ascending (R71). -/
def State.memWrites (s : State) (a : Word) : List Byte → State
  | [] => s
  | v :: vs => (s.memWrite a v).memWrites (a + 1) vs

/-- The first of the `n` target addresses from `a` that lies below 0x200, masked (60_exceptions.md R241). -/
def firstLow (a : Word) : Nat → Option Word
  | 0 => none
  | n + 1 => if isLow a then some (maskAddr a) else firstLow (a + 1) n

/-- The two bytes at pc and pc + 1, as the fetch reads them (40_cycle.md R102, 20_memory.md R64). -/
def State.fetchBytes (s : State) : List Byte := [s.readByte s.pc, s.readByte (s.pc + 1)]

/-! ## Registers (10_state.md) -/

/-- V[x]. -/
def State.readV (s : State) (x : RegIdx) : Byte := s.v[x]

/-- V[x] <- b. -/
def State.writeV (s : State) (x : RegIdx) (b : Byte) : State := { s with v := s.v.set x b }

/-- The primary result, then VF last: the flag wins when x is F (R22; 40_cycle.md R105). -/
def State.writeVFlag (s : State) (x : RegIdx) (b flag : Byte) : State := (s.writeV x b).writeV vf flag

/-- I <- a, masked to 0xFFF (R26). -/
def State.writeI (s : State) (a : Word) : State := { s with i := maskAddr a }

/-- pc <- a, reduced modulo 0x1000 (R28; 40_cycle.md R103). -/
def State.setPc (s : State) (a : Word) : State := { s with pc := maskAddr a }

/-- The address after this instruction (00_scope.md R11). -/
def State.next2 (s : State) : Word := maskAddr (s.pc + 2)

/-- The address after the next instruction (00_scope.md R11). -/
def State.next4 (s : State) : Word := maskAddr (s.pc + 4)

/-- Advance (40_cycle.md R103). -/
def State.advance (s : State) : State := s.setPc (s.pc + 2)

/-- Skip the next two bytes when `c` holds, else advance (40_cycle.md R103, 41_control_flow.md R127). -/
def State.skipIf (s : State) (c : Bool) : State := if c then s.setPc (s.pc + 4) else s.advance

/-- The registers with V0 .. V(n-1) read from memory at I, I+1, ... (43_index_memory.md R182). -/
def State.loadedV (s : State) : Nat → Vector Byte 16
  | 0 => s.v
  | n + 1 => (s.loadedV n).setIfInBounds n (s.readByte (s.i + BitVec.ofNat 16 n))

/-! ## The call stack (10_state.md R33) -/

/-- Push the address after the call; none when the stack is full (41_control_flow.md R122). -/
def State.pushReturn (s : State) : Option State :=
  if h : s.sp.val < 16 then
    some { s with stack := s.stack.set s.sp.val s.next2, sp := ⟨s.sp.val + 1, by omega⟩ }
  else none

/-- Pop the top entry into pc; none when the stack is empty. The entry is not cleared (41_control_flow.md R120, 10_state.md
R33); a live entry is below 0x1000 already (log 21). -/
def State.popReturn (s : State) : Option State :=
  if h : 0 < s.sp.val then
    some ({ s with sp := ⟨s.sp.val - 1, by omega⟩ }.setPc (s.stack[s.sp.val - 1]'(by omega)))
  else none

/-! ## Faults (60_exceptions.md)
Taking a fault is the core's only exception entry. Nothing is saved but the record, no mode changes, no handler is entered, and
there is no return from it (R253, R255). -/

/-- Append a record to the fault channel (R241, R242). -/
def State.record (s : State) (f : FaultRecord) : State := { s with faults := s.faults ++ [f] }

/-- A fatal fault: record it and halt with it; nothing else changes (R241, R246). -/
def State.halt (s : State) (f : FaultRecord) : State := { s.record f with executor := .halted f }

/-- A fatal fault raised by the instruction at pc whose opcode is `op` (R241). -/
def State.raiseFatal (s : State) (code : FaultCode) (op info : Word) : State :=
  s.halt { code := code, pc := s.pc, opcode := op, info := info }

/-- DecodeFault: record it, advance by 2 and go on (R243). -/
def State.raiseDecode (s : State) (op : Word) : State :=
  (s.record { code := .decode, pc := s.pc, opcode := op, info := 0 }).advance

/-- A store of consecutive bytes at I under LOW_WRITE_POLICY: with `fault`, every target is checked before any byte is written,
and the first low one is reported (20_memory.md R67, 60_exceptions.md R247). -/
def State.storeAtI (s : State) (op : Word) (bytes : List Byte) : State :=
  match s.params.lowWrite, firstLow s.i bytes.length with
  | .fault, some a => s.raiseFatal .protection op a
  | _, _ => (s.memWrites s.i bytes).advance

end Sys2Proof.Machine
end

