-- ==== Sys2Proof/Machine/Operands.lean ====
section
/-! DEFINITION. The operand forms beside a plain register or immediate: the widened address and register, the decimal digits,
the glyph address, the register block, the random byte and the keys (30_encoding.md R83, 43_index_memory.md, 45_keys_timers.md). -/

namespace Sys2Proof.Machine

/-- zext_16 of a 12-bit address field (R83). -/
def addrOf (nnn : Addr12) : Word := nnn.setWidth 16

/-- zext_16 of an 8-bit value (00_scope.md R9). -/
def widen (b : Byte) : Word := b.setWidth 16

/-- The first byte of the glyph of `b`: 0x050 + b * 5, with all 8 bits of `b` (43_index_memory.md R176, R177). -/
def glyphAddr (b : Byte) : Word := 0x050 + widen b * 5

/-- The decimal digits of `b`, most significant first (43_index_memory.md R178). -/
def decimalDigits (b : Byte) : List Byte :=
  [BitVec.ofNat 8 (b.toNat / 100), BitVec.ofNat 8 (b.toNat / 10 % 10), BitVec.ofNat 8 (b.toNat % 10)]

/-- V0 to V(n-1), in order (43_index_memory.md R180). -/
def State.firstRegs (s : State) (n : Nat) : List Byte := s.v.toList.take n

/-- draw_byte(): the byte the host supplied with the cycle, else a free value of this draw (42_alu.md R158; log 3). -/
def State.drawByte (s : State) : Byte :=
  match s.rnd with
  | some r => r
  | none => Config.freeByte s.draws

/-- Every execution of CXNN draws anew (42_alu.md R158). -/
def State.countDraw (s : State) : State := { s with draws := s.draws + 1 }

/-- The level of the key that a V register names; none where KEY_INDEX_POLICY faults (45_keys_timers.md R210 to R212). -/
def State.keyLevel (s : State) (k : Byte) : Option Bool :=
  if k.toNat ≤ 15 then some (s.keys.getLsbD k.toNat)
  else
    match s.params.keyIndex with
    | .fault => none
    | .lowNibble => some (s.keys.getLsbD (k &&& 0xF).toNat)
    | .notPressed => some false

/-- The lowest key with a rising edge: pressed now and not in the previous cycle (10_state.md R42, 45_keys_timers.md R217). -/
def lowestEdge (keys prev : Keys) : Option Nat :=
  (List.range 16).find? fun k => keys.getLsbD k && !prev.getLsbD k

/-- Store the pressed key's index in V[x] and move past the FX0A (45_keys_timers.md R215, R216). -/
def State.takeKey (s : State) (x : RegIdx) (k : Nat) : State := (s.writeV x (BitVec.ofNat 8 k)).advance

end Sys2Proof.Machine
end

