-- ==== Sys2Proof/Machine/Alu.lean ====
section
/-! DEFINITION. Register loads and the ALU (42_alu.md). Operands are read first, VF is written last (40_cycle.md R105). -/

namespace Sys2Proof.Machine

open Host (Outcome)

/-- 6XNN (R141). -/
def execLdImm (x : RegIdx) (kk : Byte) (s : State) : Outcome State Fault Refusal :=
  .next (s.writeV x kk).advance

/-- 7XNN: no flag (R142). -/
def execAddImm (x : RegIdx) (kk : Byte) (s : State) : Outcome State Fault Refusal :=
  .next (s.writeV x (addResult (s.readV x) kk)).advance

/-- 8XY0 (R143). -/
def execLdReg (x y : RegIdx) (s : State) : Outcome State Fault Refusal :=
  .next (s.writeV x (s.readV y)).advance

/-- 8XY1: VF is not cleared (R144). -/
def execOrReg (x y : RegIdx) (s : State) : Outcome State Fault Refusal :=
  .next (s.writeV x (s.readV x ||| s.readV y)).advance

/-- 8XY2 (R145). -/
def execAndReg (x y : RegIdx) (s : State) : Outcome State Fault Refusal :=
  .next (s.writeV x (s.readV x &&& s.readV y)).advance

/-- 8XY3 (R146). -/
def execXorReg (x y : RegIdx) (s : State) : Outcome State Fault Refusal :=
  .next (s.writeV x (s.readV x ^^^ s.readV y)).advance

/-- 8XY4 (R147, R148). -/
def execAddReg (x y : RegIdx) (s : State) : Outcome State Fault Refusal :=
  let a := s.readV x
  let b := s.readV y
  .next (s.writeVFlag x (addResult a b) (carryFlag a b)).advance

/-- 8XY5 (R149, R150). -/
def execSubReg (x y : RegIdx) (s : State) : Outcome State Fault Refusal :=
  let a := s.readV x
  let b := s.readV y
  .next (s.writeVFlag x (subResult a b) (noBorrowFlag a b)).advance

/-- 8XY6: the source is V[X]; V[Y] is not read (R152, R153). -/
def execShrReg (x _y : RegIdx) (s : State) : Outcome State Fault Refusal :=
  let a := s.readV x
  .next (s.writeVFlag x (shrResult a) (shrFlag a)).advance

/-- 8XY7 (R154, R155). -/
def execSubnReg (x y : RegIdx) (s : State) : Outcome State Fault Refusal :=
  let a := s.readV x
  let b := s.readV y
  .next (s.writeVFlag x (subResult b a) (noBorrowFlag b a)).advance

/-- 8XYE: the source is V[X]; V[Y] is not read (R156, R157). -/
def execShlReg (x _y : RegIdx) (s : State) : Outcome State Fault Refusal :=
  let a := s.readV x
  .next (s.writeVFlag x (shlResult a) (shlFlag a)).advance

/-- CXNN (R158). -/
def execRnd (x : RegIdx) (kk : Byte) (s : State) : Outcome State Fault Refusal :=
  .next (s.writeV x (s.drawByte &&& kk)).countDraw.advance

end Sys2Proof.Machine
end

