-- ==== Sys2Proof/Machine/ControlFlow.lean ====
section
/-! DEFINITION. The control-flow instructions (41_control_flow.md). -/

namespace Sys2Proof.Machine

open Host (Outcome)

/-- 00EE (R120). -/
def execRet (s : State) : Outcome State Fault Refusal :=
  match s.popReturn with
  | some t => .next t
  | none => .next (s.raiseFatal .stackUnderflow (encode .ret) 0)

/-- 1NNN (R121). -/
def execJp (nnn : Addr12) (s : State) : Outcome State Fault Refusal := .next (s.setPc (addrOf nnn))

/-- 2NNN (R122). -/
def execCall (nnn : Addr12) (s : State) : Outcome State Fault Refusal :=
  match s.pushReturn with
  | some t => .next (t.setPc (addrOf nnn))
  | none => .next (s.raiseFatal .stackOverflow (encode (.call nnn)) (BitVec.ofNat 16 s.sp.val))

/-- 3XNN (R123). -/
def execSeImm (x : RegIdx) (kk : Byte) (s : State) : Outcome State Fault Refusal :=
  .next (s.skipIf (s.readV x == kk))

/-- 4XNN (R124). -/
def execSneImm (x : RegIdx) (kk : Byte) (s : State) : Outcome State Fault Refusal :=
  .next (s.skipIf (s.readV x != kk))

/-- 5XY0 (R125). -/
def execSeReg (x y : RegIdx) (s : State) : Outcome State Fault Refusal :=
  .next (s.skipIf (s.readV x == s.readV y))

/-- 9XY0 (R126). -/
def execSneReg (x y : RegIdx) (s : State) : Outcome State Fault Refusal :=
  .next (s.skipIf (s.readV x != s.readV y))

/-- BNNN: always V0, whatever the X nibble (R128). -/
def execJpV0 (nnn : Addr12) (s : State) : Outcome State Fault Refusal :=
  .next (s.setPc (addrOf nnn + widen (s.readV 0)))

end Sys2Proof.Machine
end

