-- ==== Sys2Proof/Machine/Display.lean ====
section
/-! DEFINITION. Display clear and the sprite-blit engine (44_display.md). -/

namespace Sys2Proof.Machine

open Host (Outcome)

/-- The cell a pixel lands on: both coordinates wrap (R193). -/
def cellIndex (x y : Nat) : Nat := x % 64 + y % 32 * 64

/-- Disp[i] (10_state.md R38). -/
def dispCell (d : Display) (i : Nat) : Bool := (d[i / 64 % 32]'(by omega)).getLsbD (i % 64)

/-- Disp[i] <- Disp[i] ^ 1. -/
def dispFlip (d : Display) (i : Nat) : Display :=
  d.set (i / 64 % 32) (d[i / 64 % 32]'(by omega) ^^^ (1#64 <<< (i % 64))) (by omega)

/-- A display with every cell 0 (R190). -/
def dispClear : Display := Vector.replicate 32 0

/-- The blit so far: the buffer and whether a set sprite bit has met a set cell. -/
structure Blit where
  disp    : Display
  collide : Bool
deriving DecidableEq, Repr

/-- The sprite bit of column offset c (0 to 7): bit 7 is the leftmost (R194; log 14). -/
def spriteBit (b : Byte) (c : Nat) : Bool := b.getLsbD (7 - c)

/-- One sprite bit on the cell of column x and row y: a 0 does nothing, a 1 inverts the cell and collides with a 1 (R192,
R195). -/
def blitPixel (x y : Nat) (on : Bool) (a : Blit) : Blit :=
  if on then
    { disp := dispFlip a.disp (cellIndex x y), collide := a.collide || dispCell a.disp (cellIndex x y) }
  else a

/-- One sprite row of 8 columns from column x0 on row y (R192). -/
def blitRow (b : Byte) (x0 y : Nat) (a : Blit) : Blit :=
  (List.range 8).foldl (fun acc c => blitPixel (x0 + c) y (spriteBit b c) acc) a

/-- `n` sprite rows from (x0, y0); `row k` is the byte of row k (R192). -/
def blitRows (row : Nat → Byte) (x0 y0 n : Nat) (a : Blit) : Blit :=
  (List.range n).foldl (fun acc k => blitRow (row k) x0 (y0 + k) acc) a

/-- The byte of sprite row k: (I + k) & 0xFFF (R198). -/
def State.spriteRow (s : State) (k : Nat) : Byte := s.readByte (s.i + BitVec.ofNat 16 k)

/-- The blit of DXYN on this state: the start coordinates are read before VF is touched (R192, R196). -/
def State.blitSprite (s : State) (x y : RegIdx) (n : Nat) : Blit :=
  blitRows s.spriteRow ((s.readV x).toNat % 64) ((s.readV y).toNat % 32) n { disp := s.disp, collide := false }

/-- The display changes and the dirty flag is set (10_state.md R39; 40_cycle.md R110). -/
def State.writeDisp (s : State) (d : Display) : State := { s with disp := d, dirty := true }

/-- 00E0 (R190, R191). -/
def execCls (s : State) : Outcome State Fault Refusal := .next (s.writeDisp dispClear).advance

/-- DXYN: VF is the collision, written last (R192, R196). -/
def execDrw (x y : RegIdx) (n : Fin 16) (s : State) : Outcome State Fault Refusal :=
  let b := s.blitSprite x y n.val
  .next ((s.writeDisp b.disp).writeV vf (flagByte b.collide)).advance

end Sys2Proof.Machine
end

