-- ==== Sys2Proof/Machine/IndexMemory.lean ====
section
/-! DEFINITION. The address register and the memory moves (43_index_memory.md). -/

namespace Sys2Proof.Machine

open Host (Outcome)

/-- ANNN (R172). -/
def execLdI (nnn : Addr12) (s : State) : Outcome State Fault Refusal := .next (s.writeI (addrOf nnn)).advance

/-- FX1E: no flag (R174, R175). -/
def execAddI (x : RegIdx) (s : State) : Outcome State Fault Refusal :=
  .next (s.writeI (s.i + widen (s.readV x))).advance

/-- FX29 (R176, R177). -/
def execLdF (x : RegIdx) (s : State) : Outcome State Fault Refusal :=
  .next (s.writeI (glyphAddr (s.readV x))).advance

/-- FX33 (R178, R179). -/
def execLdB (x : RegIdx) (s : State) : Outcome State Fault Refusal :=
  .next (s.storeAtI (encode (.ldB x)) (decimalDigits (s.readV x)))

/-- FX55: V0 to V[X], I unchanged (R180, R181). -/
def execStoreRegs (x : RegIdx) (s : State) : Outcome State Fault Refusal :=
  .next (s.storeAtI (encode (.storeRegs x)) (s.firstRegs (x.val + 1)))

/-- FX65: V0 to V[X], I unchanged (R182, R183). -/
def execLoadRegs (x : RegIdx) (s : State) : Outcome State Fault Refusal :=
  .next { s with v := s.loadedV (x.val + 1) }.advance

end Sys2Proof.Machine
end

