-- ==== Sys2Proof/Machine/KeysTimers.lean ====
section
/-! DEFINITION. The key and timer instructions (45_keys_timers.md). -/

namespace Sys2Proof.Machine

open Host (Outcome)

/-- EX9E: a level test (R210, R212). -/
def execSkp (x : RegIdx) (s : State) : Outcome State Fault Refusal :=
  match s.keyLevel (s.readV x) with
  | some pressed => .next (s.skipIf pressed)
  | none => .next (s.raiseFatal .keyRange (encode (.skp x)) (widen (s.readV x)))

/-- EXA1 (R211, R212). -/
def execSknp (x : RegIdx) (s : State) : Outcome State Fault Refusal :=
  match s.keyLevel (s.readV x) with
  | some pressed => .next (s.skipIf (!pressed))
  | none => .next (s.raiseFatal .keyRange (encode (.sknp x)) (widen (s.readV x)))

/-- FX07 (R213). -/
def execLdVxDt (x : RegIdx) (s : State) : Outcome State Fault Refusal := .next (s.writeV x s.dt).advance

/-- FX0A: store the lowest key that has just been pressed, or wait with pc unchanged (R215, R217). -/
def execLdVxK (x : RegIdx) (s : State) : Outcome State Fault Refusal :=
  match lowestEdge s.keys s.keysPrev with
  | some k => .next (s.takeKey x k)
  | none => .next { s with executor := .awaitingKey x }

/-- FX15 (R219). -/
def execLdDtVx (x : RegIdx) (s : State) : Outcome State Fault Refusal := .next { s with dt := s.readV x }.advance

/-- FX18 (R220). -/
def execLdStVx (x : RegIdx) (s : State) : Outcome State Fault Refusal := .next { s with st := s.readV x }.advance

end Sys2Proof.Machine
end

