-- ==== Sys2Proof/WellFormed.lean ====
section
/-! DEFINITION. Which 16-bit words are instruction words and which images may be loaded.
Every term of Instr is well-formed by its type: each operand has exactly its field's width, and the spec has no illegal
operand value (10_state.md R21, 30_encoding.md R83; log 20). The checks are therefore on words, by the mask and match columns
of the opcode table, and on the length of a program image. -/

namespace Sys2Proof

/-- One row of the opcode table: a word w is the row's instruction when `w & mask = val` (30_encoding.md R87). -/
structure OpcodeRow where
  mask : Word
  val  : Word
deriving DecidableEq, Repr

/-- The row's pattern fits the word. -/
def OpcodeRow.fits (r : OpcodeRow) (w : Word) : Bool := w &&& r.mask == r.val

/-- The 34 rows of spec/opcode_table.json, in its order. -/
def opcodeTable : List OpcodeRow :=
  [⟨0xFFFF, 0x00E0⟩, ⟨0xFFFF, 0x00EE⟩, ⟨0xF000, 0x1000⟩, ⟨0xF000, 0x2000⟩,
   ⟨0xF000, 0x3000⟩, ⟨0xF000, 0x4000⟩, ⟨0xF00F, 0x5000⟩, ⟨0xF000, 0x6000⟩,
   ⟨0xF000, 0x7000⟩] ++
  [⟨0xF00F, 0x8000⟩, ⟨0xF00F, 0x8001⟩, ⟨0xF00F, 0x8002⟩, ⟨0xF00F, 0x8003⟩,
   ⟨0xF00F, 0x8004⟩, ⟨0xF00F, 0x8005⟩, ⟨0xF00F, 0x8006⟩, ⟨0xF00F, 0x8007⟩,
   ⟨0xF00F, 0x800E⟩] ++
  [⟨0xF00F, 0x9000⟩, ⟨0xF000, 0xA000⟩, ⟨0xF000, 0xB000⟩, ⟨0xF000, 0xC000⟩,
   ⟨0xF000, 0xD000⟩, ⟨0xF0FF, 0xE09E⟩, ⟨0xF0FF, 0xE0A1⟩] ++
  [⟨0xF0FF, 0xF007⟩, ⟨0xF0FF, 0xF00A⟩, ⟨0xF0FF, 0xF015⟩, ⟨0xF0FF, 0xF018⟩,
   ⟨0xF0FF, 0xF01E⟩, ⟨0xF0FF, 0xF029⟩, ⟨0xF0FF, 0xF033⟩, ⟨0xF0FF, 0xF055⟩,
   ⟨0xF0FF, 0xF065⟩]

/-- The word matches a row of the opcode table; a word that matches none is unknown (30_encoding.md R88). -/
def wellFormedWord (w : Word) : Bool := opcodeTable.any fun r => r.fits w

/-- MAX_ROM: the bytes from 0x200 to 0xFFF (00_scope.md R7). -/
def maxRom : Nat := 3584

/-- An image length that may be loaded (70_reset_and_hazards.md R273, R274). -/
def wellFormedLength (len : Nat) : Bool := decide (1 ≤ len ∧ len ≤ maxRom)

end Sys2Proof
end

