-- ==== Sys2Proof/Machine/HostSteps.lean ====
section
/-! DEFINITION. The parts of the host's steps that execute no instruction: the key wait, the end of a cycle, the tick, the display
read, reset and load (40_cycle.md, 45_keys_timers.md, 70_reset_and_hazards.md), and the core's outputs (10_state.md R43). -/

namespace Sys2Proof.Machine

/-- The executor is Halted; the interface output `halted` (10_state.md R43). -/
def State.isHalted (s : State) : Bool :=
  match s.executor with
  | .halted _ => true
  | .running => false
  | .awaitingKey _ => false

/-- The interface output `buzzer` (10_state.md R31). -/
def State.buzzer (s : State) : Bool := s.st != 0

/-- The inputs of a cycle are sampled at its start and do not change during it (10_state.md R41). -/
def State.sample (s : State) (keys : Keys) (rnd : Option Byte) : State := { s with keys := keys, rnd := rnd }

/-- keys_prev <- keys at the end of every cycle taken (40_cycle.md R109). -/
def State.endCycle (s : State) : State := { s with keysPrev := s.keys }

/-- A cycle in AwaitingKey(x): no fetch; the first rising edge completes FX0A, else the wait goes on (45_keys_timers.md R216). -/
def State.awaitKey (s : State) (x : RegIdx) : State :=
  match lowestEdge s.keys s.keysPrev with
  | some k => { s.takeKey x k with executor := .running }
  | none => s

/-- A countdown counter's next value: never below 0 (45_keys_timers.md R224). -/
def countDown (t : Byte) : Byte := if t = 0 then 0 else t - 1

/-- One tick: both timers, independently; none when Halted (45_keys_timers.md R224). -/
def State.tick (s : State) : State :=
  if s.isHalted then s else { s with dt := countDown s.dt, st := countDown s.st }

/-- The host has read the display: dirty is cleared (10_state.md R39). A halted core is frozen (60_exceptions.md R254; log 10). -/
def State.dispRead (s : State) : State := if s.isHalted then s else { s with dirty := false }

/-- The host's reset: every piece of the spec's state at its reset value, Halted left too (70_reset_and_hazards.md R270). The
parameters, the host's schedule, its inputs and its random source are not the core's state and stay (log 15). -/
def State.doReset (s : State) : State :=
  { State.resetWith s.params with schedule := s.schedule, keys := s.keys, rnd := s.rnd, draws := s.draws }

/-- The 16-bit `info` of a LoadError: the declared length; a free value where that needs more than 16 bits (60_exceptions.md R241;
log 9). -/
def loadInfo (len : Nat) : Word := if len < 0x10000 then BitVec.ofNat 16 len else Config.oversizeInfo len

/-- LoadError: record it, write nothing, take no cycle afterwards (70_reset_and_hazards.md R274, 60_exceptions.md R241, R249;
log 8). -/
def State.failLoad (s : State) (cause : LoadCause) (len : Nat) : State :=
  { s.halt { code := .load, pc := 0, opcode := 0, info := loadInfo len } with
    loadError := some { cause := cause, length := len } }

/-- `load`: the check precedes the copy; a valid image is copied verbatim to 0x200 and its length recorded
(70_reset_and_hazards.md R273, R274; the order of the causes is log 17). -/
def State.doLoad (s : State) : LoadSource → State
  | .unreadable declared => s.failLoad .unreadable declared
  | .image bytes =>
    if wellFormedLength bytes.length then { s.pokeBytes 0x200 bytes with romLen := bytes.length }
    else if bytes.isEmpty then s.failLoad .empty bytes.length
    else s.failLoad .oversized bytes.length

/-- A step other than reset has been taken, so a load is no longer admitted (70_reset_and_hazards.md R272; log 6). -/
def State.stepTaken (s : State) : State := { s with justReset := false }

end Sys2Proof.Machine
end

