-- ==== Sys2Proof/Machine/Step.lean ====
section
/-! DEFINITION. One step of the machine: the host's next request (40_cycle.md R100, R101). -/

namespace Sys2Proof.Machine

open Host (Outcome)

/-- Apply a function to a next state; a stop stays a stop. -/
def thenState (o : Outcome State Fault Refusal) (f : State → State) : Outcome State Fault Refusal :=
  match o with
  | .next s => .next (f s)
  | .fault r => .fault r
  | .refused r => .refused r

/-- A cycle in Running: fetch, decode, execute (40_cycle.md R102). An unknown word raises DecodeFault. -/
def runOne (s : State) : Outcome State Fault Refusal :=
  match decode s.fetchBytes with
  | .instr i _ => exec i s
  | .unknownWord w _ => .next (s.raiseDecode w)
  | .truncated _ => .next s

/-- One executor cycle (40_cycle.md R101): by the executor's state, then keys_prev; a halted core takes no cycle (R108). -/
def cycle (s : State) (keys : Keys) (rnd : Option Byte) : Outcome State Fault Refusal :=
  match s.executor with
  | .halted _ => .next s
  | .awaitingKey x => .next ((s.sample keys rnd).awaitKey x).endCycle
  | .running => thenState (runOne (s.sample keys rnd)) State.endCycle

/-- Take one request of the host. A load is admitted only as the first step after reset (70_reset_and_hazards.md R272; log 6). -/
def hostStep (h : HostStep) (s : State) : Outcome State Fault Refusal :=
  match h with
  | .cycle keys rnd => cycle s.stepTaken keys rnd
  | .tick => .next s.stepTaken.tick
  | .dispRead => .next s.stepTaken.dispRead
  | .reset => .next s.doReset
  | .load src => if s.justReset then .next (s.stepTaken.doLoad src) else .refused .loadNotAfterReset

/-- One step: the oldest request of the schedule. With nothing scheduled the host takes a cycle with the key vector as it stands
and leaves the random byte free (log 1, log 2, log 3). -/
def step (s : State) : Outcome State Fault Refusal :=
  match s.schedule with
  | h :: rest => hostStep h { s with schedule := rest }
  | [] => hostStep (.cycle s.keys none) s

/-- `s` with the table word `w` stored where the next cycle fetches, and that cycle the very next step: nothing else is scheduled
and the executor runs (log 18). -/
def State.withFetchWord (s : State) (nbits w : Nat) : State :=
  { s.pokeBytes s.pc (wordBytes (tableWord nbits w)) with schedule := [], executor := .running }

end Sys2Proof.Machine
end

