-- ==== Sys2Proof/Safety.lean ====
section
/-! DEFINITION. What counts as a good state and a safe run, and the vocabulary the statements use. -/

namespace Sys2Proof.Machine

/-- A record has the form 60_exceptions.md R241 gives its kind. -/
def FaultRecord.Legal (f : FaultRecord) : Prop :=
  f.pc.toNat < 0x1000 ∧
  match f.code with
  | .decode => f.info = 0
  | .stackOverflow => f.info = 16
  | .stackUnderflow => f.info = 0
  | .protection => f.info.toNat < 0x200
  | .keyRange => 15 < f.info.toNat ∧ f.info.toNat < 256
  | .load => f.pc = 0 ∧ f.opcode = 0

/-- The invariant of the machine: the address registers and return addresses stay below 0x1000 (10_state.md R26, R28, R33), memory
keeps its canonical form, the recorded length is a legal one (R46), every fault record has its kind's form and a halted core has
recorded the fault it halted with (60_exceptions.md R241, R242). -/
structure State.Inv (s : State) : Prop where
  pc_lt           : s.pc.toNat < 0x1000
  i_lt            : s.i.toNat < 0x1000
  stack_lt        : ∀ k : Fin 16, s.stack[k].toNat < 0x1000
  mem_wf          : Memory.wf s.params.font s.mem = true
  romLen_le       : s.romLen ≤ maxRom
  faults_legal    : ∀ f ∈ s.faults, f.Legal
  halted_recorded : ∀ f, s.executor = .halted f → f ∈ s.faults

/-- Everything below 0x200, the font among it, still reads as reset left it (20_memory.md R66, R68). -/
def State.LowIntact (s : State) : Prop :=
  ∀ a : Nat, a < 0x200 → Memory.read s.params.font s.mem a = unlistedByte s.params.font a

/-- A run is safe so far: no fatal fault has halted the core (60_exceptions.md R254). -/
def State.Safe (s : State) : Prop := s.isHalted = false

/-- The k-th byte address of an access at I (43_index_memory.md R170). -/
def State.atI (s : State) (k : Nat) : Word := maskAddr (s.i + BitVec.ofNat 16 k)

/-- No target of an `n`-byte store at I lies below 0x200 (20_memory.md R67). -/
def State.NoLowTarget (s : State) (n : Nat) : Prop := ∀ k, k < n → 0x200 ≤ (s.i.toNat + k) % 0x1000

/-- `k` is the lowest of the `n` targets of a store at I that lies below 0x200. -/
def State.LowestLowTarget (s : State) (n k : Nat) : Prop :=
  k < n ∧ (s.i.toNat + k) % 0x1000 < 0x200 ∧ ∀ j, j < k → 0x200 ≤ (s.i.toNat + j) % 0x1000

/-- Of the state only V registers in `dst` and pc differ; memory reads as before at every address. -/
def State.OnlyRegs (s t : State) (dst : RegIdx → Prop) : Prop :=
  (∀ r, ¬ dst r → t.readV r = s.readV r) ∧ (∀ a, t.readByte a = s.readByte a) ∧ t = { s with v := t.v, pc := t.pc }

/-- Of the state only the `n` bytes at I and pc differ. -/
def State.OnlyStore (s t : State) (n : Nat) : Prop :=
  (∀ a, (∀ k, k < n → maskAddr a ≠ s.atI k) → t.readByte a = s.readByte a) ∧ t = { s with mem := t.mem, pc := t.pc }

/-- pc has moved past the instruction's two bytes (10_state.md R28); what happens at the top of memory is decision D4 and is not said
here. -/
def State.Advances (s t : State) : Prop := s.pc.toNat < 0xFFE → t.pc.toNat = s.pc.toNat + 2

/-- A set bit of the DXYN sprite at I lands on cell `i`: the formulas of 44_display.md R192 to R194 written over the whole
sprite. -/
def State.SpriteCovers (s : State) (x y : RegIdx) (n i : Nat) : Prop :=
  ∃ k c, k < n ∧ c < 8 ∧ (s.readByte (s.i + BitVec.ofNat 16 k)).getLsbD (7 - c) = true ∧
    i = ((s.readV x).toNat + c) % 64 + ((s.readV y).toNat + k) % 32 * 64

/-- Key `k` has a rising edge (10_state.md R42). -/
def KeyEdge (keys prev : Keys) (k : Nat) : Prop := k < 16 ∧ keys.getLsbD k = true ∧ prev.getLsbD k = false

/-- `k` is the lowest key with a rising edge (45_keys_timers.md R217). -/
def LowestKeyEdge (keys prev : Keys) (k : Nat) : Prop := KeyEdge keys prev k ∧ ∀ j, j < k → ¬ KeyEdge keys prev j

/-- The state in which the host's request at the head of the schedule is carried out: the request is gone, and a load is no longer
admitted. -/
def State.after (s : State) (later : List HostStep) : State := { s with schedule := later, justReset := false }

end Sys2Proof.Machine
end

