-- ==== Sys2Proof/Certificates/Slice0/Obligations.lean ====
section
/-! DEFINITION. The statements for the provers. Where a docstring names a decision D<n> of 92_eei_decisions.md or a log entry, that
clause is the spec's or the model's choice, not the source's. `Advances` is the source's "advances by 2"; `next2` and `next4` also
wrap modulo 0x1000, which is decision D4 (log 13), here and in every statement that names them. -/

open Sys2Proof Sys2Proof.Machine

/-! ## Encoding -/

/-- Words written out from R81 and R82, one or more of each family, and three unknown words. -/
def Obligations.SampleWordsDecode : Prop :=
  decodeTableWord 16 0x00E0 = some .cls ∧ decodeTableWord 16 0x00EE = some .ret ∧
  decodeTableWord 16 0x1234 = some (.jp 0x234) ∧ decodeTableWord 16 0x3310 = some (.seImm 3 0x10) ∧
  decodeTableWord 16 0x8F14 = some (.addReg 15 1) ∧ decodeTableWord 16 0xA2F0 = some (.ldI 0x2F0) ∧
  decodeTableWord 16 0xD012 = some (.drw 0 1 2) ∧ decodeTableWord 16 0xE59E = some (.skp 5) ∧
  decodeTableWord 16 0xF155 = some (.storeRegs 1) ∧ decodeTableWord 16 0x01E0 = none ∧
  decodeTableWord 16 0x5121 = none ∧ decodeTableWord 16 0x8008 = none

/-- Every instruction, with every operand at every value: its two bytes decode to it, whatever bytes follow. -/
def Obligations.DecodeInvertsEncode : Prop :=
  ∀ (i : Instr) (rest : List Byte), decode (wordBytes (encode i) ++ rest) = .instr i rest

/-- No bit of an opcode is dropped by the decoder, the unread Y field of 8XY6 and 8XYE included. -/
def Obligations.EncodeInvertsDecode : Prop :=
  ∀ (w : Word) (i : Instr), decodeWord w = some i → encode i = w

/-- R88's list of the unknown words, in arithmetic on the word's value. -/
def Obligations.UnknownWordsAreExactlyListed : Prop :=
  ∀ w : Word, decodeWord w = none ↔
    (w.toNat ≤ 0x0FFF ∧ w.toNat ≠ 0x00E0 ∧ w.toNat ≠ 0x00EE) ∨
    ((w.toNat / 4096 = 0x5 ∨ w.toNat / 4096 = 0x9) ∧ w.toNat % 16 ≠ 0) ∨
    (w.toNat / 4096 = 0x8 ∧ w.toNat % 16 ∈ [0x8, 0x9, 0xA, 0xB, 0xC, 0xD, 0xF]) ∨
    (w.toNat / 4096 = 0xE ∧ w.toNat % 256 ∉ [0x9E, 0xA1]) ∨
    (w.toNat / 4096 = 0xF ∧ w.toNat % 256 ∉ [0x07, 0x0A, 0x15, 0x18, 0x1E, 0x29, 0x33, 0x55, 0x65])

/-- The dispatching decoder and the mask and match columns of the opcode table accept the same words. -/
def Obligations.DecoderAgreesWithOpcodeTable : Prop :=
  ∀ w : Word, (decodeWord w).isSome = wellFormedWord w

/-! ## One cycle -/

/-- In Running, the step of a scheduled cycle is exec of the instruction that the two bytes at pc decode to, on the state with this
cycle's inputs, and then keys_prev takes the key vector (decision D9). With nothing scheduled the host takes a cycle with the keys
as they stand and leaves the random byte free (log 1). -/
def Obligations.CycleRunsDecodedInstruction : Prop :=
  ∀ (s : State) (keys : Keys) (rnd : Option Byte) (later : List HostStep) (i : Instr) (rest : List Byte),
    s.executor = .running → decode [s.readByte s.pc, s.readByte (s.pc + 1)] = .instr i rest →
    (s.schedule = .cycle keys rnd :: later →
      step s = thenState (exec i { s.after later with keys := keys, rnd := rnd }) State.endCycle) ∧
    (s.schedule = [] → step s = thenState (exec i { s.after [] with rnd := none }) State.endCycle)

/-- R243: an unknown word is recorded (code 1; the record's form is decision D21) and skipped, and nothing else of the core's state
changes; keys_prev by decision D9. -/
def Obligations.UnknownWordIsRecordedAndSkipped : Prop :=
  ∀ (s : State) (keys : Keys) (rnd : Option Byte) (later : List HostStep) (w : Word),
    s.executor = .running → s.schedule = .cycle keys rnd :: later →
    w.toNat = (s.readByte s.pc).toNat * 256 + (s.readByte (s.pc + 1)).toNat → decodeWord w = none →
    step s = .next { s.after later with
      keys := keys, rnd := rnd, keysPrev := keys, pc := s.next2,
      faults := s.faults ++ [{ code := .decode, pc := s.pc, opcode := w, info := 0 }] }

/-- A step ends in a next state, but for a load that is not the first step after reset, which is refused by name (R272, decision
D22; log 6). No step ends in a fault outcome (log 16). -/
def Obligations.OnlyLateLoadIsRefused : Prop :=
  ∀ s : State,
    ((∃ src later, s.schedule = .load src :: later) ∧ s.justReset = false → step s = .refused .loadNotAfterReset) ∧
    (¬ ((∃ src later, s.schedule = .load src :: later) ∧ s.justReset = false) → ∃ t, step s = .next t)

/-! ## Control flow -/

/-- R121, with the frame: nothing but pc changes. -/
def Obligations.JumpSetsPc : Prop :=
  ∀ (nnn : Addr12) (s : State), ∃ t, exec (.jp nnn) s = .next t ∧
    t.pc.toNat = nnn.toNat ∧ t = { s with pc := t.pc }

/-- R128: always V0, wrapping, with the frame. -/
def Obligations.JumpWithOffsetAddsV0 : Prop :=
  ∀ (nnn : Addr12) (s : State), ∃ t, exec (.jpV0 nnn) s = .next t ∧
    t.pc.toNat = (nnn.toNat + (s.readV 0).toNat) % 0x1000 ∧ t = { s with pc := t.pc }

/-- R122 below the depth limit: the address after the call is pushed, sp rises, pc is the target; every other entry and all other
state stay. -/
def Obligations.CallPushesReturnAddress : Prop :=
  ∀ (nnn : Addr12) (s : State), s.sp.val < 16 → ∃ t, exec (.call nnn) s = .next t ∧
    t.pc.toNat = nnn.toNat ∧ t.sp.val = s.sp.val + 1 ∧ t.stack[s.sp.val]? = some s.next2 ∧
    (∀ k : Nat, k ≠ s.sp.val → t.stack[k]? = s.stack[k]?) ∧
    t = { s with pc := t.pc, sp := t.sp, stack := t.stack }

/-- R120 above an empty stack: the top entry becomes pc, sp falls, the entry stays. The premise on the entry is part of
State.Inv. -/
def Obligations.ReturnPopsStack : Prop :=
  ∀ (s : State) (a : Word), 0 < s.sp.val → s.stack[s.sp.val - 1]? = some a → a.toNat < 0x1000 →
    ∃ t, exec .ret s = .next t ∧ t.pc = a ∧ t.sp.val + 1 = s.sp.val ∧ t = { s with pc := t.pc, sp := t.sp }

/-- R120, R122 and R245 at the stack's limits: a call at sp = 16 halts with StackFault code 2, a return at sp = 0 with code 3, and
nothing else changes (decisions D17, D21). -/
def Obligations.StackLimitsHalt : Prop :=
  ∀ (nnn : Addr12) (s : State),
    (s.sp.val = 16 → exec (.call nnn) s =
      .next (s.halt { code := .stackOverflow, pc := s.pc, opcode := encode (.call nnn), info := 16 })) ∧
    (s.sp.val = 0 → exec .ret s =
      .next (s.halt { code := .stackUnderflow, pc := s.pc, opcode := 0x00EE, info := 0 }))

/-- A return from any state that has kept the stack since the call resumes after the call, with the caller's depth. -/
def Obligations.ReturnResumesAfterCall : Prop :=
  ∀ (nnn : Addr12) (s : State), s.sp.val < 16 → ∃ t, exec (.call nnn) s = .next t ∧
    ∀ u : State, u.sp = t.sp → u.stack = t.stack →
      ∃ w, exec .ret u = .next w ∧ w.pc.toNat = (s.pc.toNat + 2) % 0x1000 ∧ w.sp = s.sp ∧ w.v = u.v ∧ w.mem = u.mem

/-- R123 and R124, with the frame: only pc changes. -/
def Obligations.ImmediateSkipsCompare : Prop :=
  ∀ (x : RegIdx) (kk : Byte) (s : State),
    exec (.seImm x kk) s = .next { s with pc := if (s.readV x).toNat = kk.toNat then s.next4 else s.next2 } ∧
    exec (.sneImm x kk) s = .next { s with pc := if (s.readV x).toNat = kk.toNat then s.next2 else s.next4 }

/-- R125 and R126, with the frame: only pc changes. -/
def Obligations.RegisterSkipsCompare : Prop :=
  ∀ (x y : RegIdx) (s : State),
    exec (.seReg x y) s = .next { s with pc := if (s.readV x).toNat = (s.readV y).toNat then s.next4 else s.next2 } ∧
    exec (.sneReg x y) s = .next { s with pc := if (s.readV x).toNat = (s.readV y).toNat then s.next2 else s.next4 }

/-! ## Loads and ALU: result, VF, frame and pc of every form, X = F and Y = F included -/

/-- R141 and R143. -/
def Obligations.LoadsWriteRegister : Prop :=
  ∀ (x y : RegIdx) (kk : Byte) (s : State),
    (∃ t, exec (.ldImm x kk) s = .next t ∧ t.readV x = kk ∧ s.OnlyRegs t (· = x) ∧ s.Advances t) ∧
    (∃ t, exec (.ldReg x y) s = .next t ∧ t.readV x = s.readV y ∧ s.OnlyRegs t (· = x) ∧ s.Advances t)

/-- R142: VF is touched only when X is F. -/
def Obligations.AddImmediateWraps : Prop :=
  ∀ (x : RegIdx) (kk : Byte) (s : State), ∃ t, exec (.addImm x kk) s = .next t ∧
    (t.readV x).toNat = ((s.readV x).toNat + kk.toNat) % 256 ∧ s.OnlyRegs t (· = x) ∧ s.Advances t

/-- R144, R145 and R146, bit by bit; VF is touched only when X is F. -/
def Obligations.LogicIsBitwise : Prop :=
  ∀ (x y : RegIdx) (s : State),
    (∃ t, exec (.orReg x y) s = .next t ∧ s.OnlyRegs t (· = x) ∧ s.Advances t ∧
      ∀ k, k < 8 → (t.readV x).getLsbD k = ((s.readV x).getLsbD k || (s.readV y).getLsbD k)) ∧
    (∃ t, exec (.andReg x y) s = .next t ∧ s.OnlyRegs t (· = x) ∧ s.Advances t ∧
      ∀ k, k < 8 → (t.readV x).getLsbD k = ((s.readV x).getLsbD k && (s.readV y).getLsbD k)) ∧
    (∃ t, exec (.xorReg x y) s = .next t ∧ s.OnlyRegs t (· = x) ∧ s.Advances t ∧
      ∀ k, k < 8 → (t.readV x).getLsbD k = ((s.readV x).getLsbD k != (s.readV y).getLsbD k))

/-- R147: the sum modulo 256, and VF the carry, which wins when X is F. -/
def Obligations.AddSetsCarry : Prop :=
  ∀ (x y : RegIdx) (s : State), ∃ t, exec (.addReg x y) s = .next t ∧
    (x ≠ vf → (t.readV x).toNat = ((s.readV x).toNat + (s.readV y).toNat) % 256) ∧
    (t.readV vf).toNat = (if (s.readV x).toNat + (s.readV y).toNat > 255 then 1 else 0) ∧
    s.OnlyRegs t (fun r => r = x ∨ r = vf) ∧ s.Advances t

/-- R149: the difference modulo 256, and VF the no-borrow flag, 1 on equal operands. -/
def Obligations.SubSetsNoBorrow : Prop :=
  ∀ (x y : RegIdx) (s : State), ∃ t, exec (.subReg x y) s = .next t ∧
    (x ≠ vf → (t.readV x).toNat = ((s.readV x).toNat + 256 - (s.readV y).toNat) % 256) ∧
    (t.readV vf).toNat = (if (s.readV x).toNat ≥ (s.readV y).toNat then 1 else 0) ∧
    s.OnlyRegs t (fun r => r = x ∨ r = vf) ∧ s.Advances t

/-- R154: the operands the other way round. -/
def Obligations.SubnSetsNoBorrow : Prop :=
  ∀ (x y : RegIdx) (s : State), ∃ t, exec (.subnReg x y) s = .next t ∧
    (x ≠ vf → (t.readV x).toNat = ((s.readV y).toNat + 256 - (s.readV x).toNat) % 256) ∧
    (t.readV vf).toNat = (if (s.readV y).toNat ≥ (s.readV x).toNat then 1 else 0) ∧
    s.OnlyRegs t (fun r => r = x ∨ r = vf) ∧ s.Advances t

/-- R152: V[X] halved and VF its old bit 0, whatever Y is. -/
def Obligations.ShiftRightSetsOldBit0 : Prop :=
  ∀ (x y : RegIdx) (s : State), ∃ t, exec (.shrReg x y) s = .next t ∧
    (x ≠ vf → (t.readV x).toNat = (s.readV x).toNat / 2) ∧ (t.readV vf).toNat = (s.readV x).toNat % 2 ∧
    s.OnlyRegs t (fun r => r = x ∨ r = vf) ∧ s.Advances t

/-- R156: V[X] doubled modulo 256 and VF its old bit 7, whatever Y is. -/
def Obligations.ShiftLeftSetsOldBit7 : Prop :=
  ∀ (x y : RegIdx) (s : State), ∃ t, exec (.shlReg x y) s = .next t ∧
    (x ≠ vf → (t.readV x).toNat = (s.readV x).toNat * 2 % 256) ∧ (t.readV vf).toNat = (s.readV x).toNat / 128 ∧
    s.OnlyRegs t (fun r => r = x ∨ r = vf) ∧ s.Advances t

/-- R158: the draw masked by NN, for the host's byte and for every value of the free one; a new draw each time (log 3). -/
def Obligations.RandomByteIsMasked : Prop :=
  ∀ (x : RegIdx) (kk : Byte) (s : State), ∃ r t, exec (.rnd x kk) s = .next t ∧
    (∀ b, s.rnd = some b → r = b) ∧ (s.rnd = none → r = Config.freeByte s.draws) ∧
    t.draws = s.draws + 1 ∧ t.pc = s.next2 ∧
    (∀ k, k < 8 → (t.readV x).getLsbD k = (r.getLsbD k && kk.getLsbD k)) ∧
    (∀ q, q ≠ x → t.readV q = s.readV q) ∧ (∀ a, t.readByte a = s.readByte a) ∧
    t = { s with v := t.v, pc := t.pc, draws := t.draws }

/-! ## I and memory -/

/-- R172, R174 and R176, with the frame: only I and pc change. -/
def Obligations.IndexIsSetAddedAndPointed : Prop :=
  ∀ (nnn : Addr12) (x : RegIdx) (s : State),
    (∃ t, exec (.ldI nnn) s = .next t ∧ t.i.toNat = nnn.toNat ∧
      s.Advances t ∧ t = { s with i := t.i, pc := t.pc }) ∧
    (∃ t, exec (.addI x) s = .next t ∧ t.i.toNat = (s.i.toNat + (s.readV x).toNat) % 0x1000 ∧
      s.Advances t ∧ t = { s with i := t.i, pc := t.pc }) ∧
    (∃ t, exec (.ldF x) s = .next t ∧ t.i.toNat = 0x050 + (s.readV x).toNat * 5 ∧
      s.Advances t ∧ t = { s with i := t.i, pc := t.pc })

/-- R178 where every byte may be written: no target below 0x200, or LOW_WRITE_POLICY = store (decision D7). The three digits, most
significant first; every other byte and all other state as before. -/
def Obligations.DecimalDigitsAreStored : Prop :=
  ∀ (x : RegIdx) (s : State), Memory.wf s.params.font s.mem = true →
    (s.NoLowTarget 3 ∨ s.params.lowWrite = .store) → ∃ t, exec (.ldB x) s = .next t ∧
    (t.readByte (s.atI 0)).toNat = (s.readV x).toNat / 100 ∧
    (t.readByte (s.atI 1)).toNat = (s.readV x).toNat / 10 % 10 ∧
    (t.readByte (s.atI 2)).toNat = (s.readV x).toNat % 10 ∧ s.OnlyStore t 3 ∧ t.pc = s.next2

/-- R180 where every byte may be written (decision D7): V0 to V[X] at I, every other byte and all other state as before. -/
def Obligations.RegisterBlockIsStored : Prop :=
  ∀ (x : RegIdx) (s : State), Memory.wf s.params.font s.mem = true →
    (s.NoLowTarget (x.val + 1) ∨ s.params.lowWrite = .store) → ∃ t, exec (.storeRegs x) s = .next t ∧
    (∀ r : RegIdx, r ≤ x → t.readByte (s.atI r.val) = s.readV r) ∧ s.OnlyStore t (x.val + 1) ∧ t.pc = s.next2

/-- R67 and R247 (decision D7), LOW_WRITE_POLICY = fault: a target below 0x200 halts FX33 and FX55 with ProtectionFault at the first
such address, and nothing is written. -/
def Obligations.LowStoreHaltsUnderFault : Prop :=
  ∀ (x : RegIdx) (k : Nat) (s : State), s.params.lowWrite = .fault →
    (s.LowestLowTarget 3 k → exec (.ldB x) s =
      .next (s.halt { code := .protection, pc := s.pc, opcode := encode (.ldB x), info := s.atI k })) ∧
    (s.LowestLowTarget (x.val + 1) k → exec (.storeRegs x) s =
      .next (s.halt { code := .protection, pc := s.pc, opcode := encode (.storeRegs x), info := s.atI k }))

/-- R67 (decision D7), LOW_WRITE_POLICY = discard: bytes below 0x200 keep their value, the others are stored, no fault. -/
def Obligations.LowBytesAreDiscarded : Prop :=
  ∀ (x : RegIdx) (s : State), Memory.wf s.params.font s.mem = true → s.params.lowWrite = .discard →
    (∃ t, exec (.ldB x) s = .next t ∧ s.OnlyStore t 3 ∧ t.pc = s.next2 ∧
      ∀ k, k < 3 → (t.readByte (s.atI k)).toNat =
        if (s.i.toNat + k) % 0x1000 < 0x200 then (s.readByte (s.atI k)).toNat
        else (s.readV x).toNat / 10 ^ (2 - k) % 10) ∧
    (∃ t, exec (.storeRegs x) s = .next t ∧ s.OnlyStore t (x.val + 1) ∧ t.pc = s.next2 ∧
      ∀ r : RegIdx, r ≤ x → t.readByte (s.atI r.val) =
        if (s.i.toNat + r.val) % 0x1000 < 0x200 then s.readByte (s.atI r.val) else s.readV r)

/-- R182: V0 to V[X] from I, wrapping; the registers above X and I stay. -/
def Obligations.RegisterBlockIsLoaded : Prop :=
  ∀ (x : RegIdx) (s : State), ∃ t, exec (.loadRegs x) s = .next t ∧
    (∀ r : RegIdx, r ≤ x → t.readV r = s.readByte (s.atI r.val)) ∧ s.OnlyRegs t (· ≤ x) ∧ s.Advances t

/-- R183: storing V0..VX and loading them back, whatever V holds in between, restores them and leaves the registers above X, for
every X, where LOW_WRITE_POLICY refuses no store. -/
def Obligations.StoreThenLoadRestoresRegisters : Prop :=
  ∀ (x : RegIdx) (s : State), Memory.wf s.params.font s.mem = true →
    (s.NoLowTarget (x.val + 1) ∨ s.params.lowWrite = .store) →
    ∃ t, exec (.storeRegs x) s = .next t ∧
      ∀ v : Vector Byte 16, ∃ u, exec (.loadRegs x) { t with v := v } = .next u ∧ u.i = s.i ∧
        ∀ r : RegIdx, u.readV r = if r ≤ x then s.readV r else v[r]

/-- R76 and R287 (decision D6): bytes that FX55 stores over the next instruction are what the next fetch reads. -/
def Obligations.StoredBytesAreFetched : Prop :=
  ∀ (x : RegIdx) (s : State), Memory.wf s.params.font s.mem = true → 1 ≤ x.val → s.i = s.next2 →
    s.NoLowTarget (x.val + 1) →
    ∃ t, exec (.storeRegs x) s = .next t ∧ t.fetchBytes = [s.readV 0, s.readV 1]

/-! ## Display -/

/-- R190: every cell 0, dirty, and nothing else but pc. -/
def Obligations.ClearBlanksDisplay : Prop :=
  ∀ s : State, ∃ t, exec .cls s = .next t ∧ (∀ i, i < 2048 → dispCell t.disp i = false) ∧
    t.dirty = true ∧ t.pc = s.next2 ∧ t = { s with disp := t.disp, dirty := t.dirty, pc := t.pc }

/-- R192: a cell is inverted exactly when a set sprite bit lands on it; VF is 1 exactly when one of those cells was set; dirty. The
column order of the bits is decision D12 (log 14). -/
def Obligations.DrawInvertsCoveredCells : Prop :=
  ∀ (x y : RegIdx) (n : Fin 16) (s : State), ∃ t, exec (.drw x y n) s = .next t ∧
    (∀ i, i < 2048 → (dispCell t.disp i ≠ dispCell s.disp i ↔ s.SpriteCovers x y n.val i)) ∧
    ((∃ i, i < 2048 ∧ s.SpriteCovers x y n.val i ∧ dispCell s.disp i = true) → t.readV vf = 1) ∧
    ((∀ i, i < 2048 → s.SpriteCovers x y n.val i → dispCell s.disp i = false) → t.readV vf = 0) ∧
    (∀ r, r ≠ vf → t.readV r = s.readV r) ∧ (∀ a, t.readByte a = s.readByte a) ∧ t.dirty = true ∧ t.pc = s.next2 ∧
    t = { s with v := t.v, disp := t.disp, dirty := t.dirty, pc := t.pc }

/-- R199: drawing the same sprite again restores the display; from a blank display a non-empty sprite gives VF = 0, then 1. -/
def Obligations.DrawingTwiceErases : Prop :=
  ∀ (x y : RegIdx) (n : Fin 16) (s : State), x ≠ vf → y ≠ vf →
    ∃ t u, exec (.drw x y n) s = .next t ∧ exec (.drw x y n) t = .next u ∧ u.disp = s.disp ∧
      ((∀ i, i < 2048 → dispCell s.disp i = false) → (∃ i, s.SpriteCovers x y n.val i) →
        t.readV vf = 0 ∧ u.readV vf = 1)

/-- R39 (reset of the flag by the host's read): only dirty changes, in a core that is not halted (log 10). -/
def Obligations.DisplayReadClearsDirty : Prop :=
  ∀ (s : State) (later : List HostStep), s.schedule = .dispRead :: later → s.isHalted = false →
    step s = .next { s.after later with dirty := false }

/-! ## Keys and timers -/

/-- R210 and R211 for V[X] up to 15: the level of the key; only pc changes. -/
def Obligations.KeySkipsTestLevel : Prop :=
  ∀ (x : RegIdx) (s : State), (s.readV x).toNat ≤ 15 →
    exec (.skp x) s =
      .next { s with pc := if s.keys.getLsbD (s.readV x).toNat = true then s.next4 else s.next2 } ∧
    exec (.sknp x) s =
      .next { s with pc := if s.keys.getLsbD (s.readV x).toNat = true then s.next2 else s.next4 }

/-- R212 and R248 (decision D8) for V[X] above 15, under each KEY_INDEX_POLICY. -/
def Obligations.KeyIndexAboveFifteen : Prop :=
  ∀ (x : RegIdx) (s : State), 15 < (s.readV x).toNat →
    (s.params.keyIndex = .fault →
      exec (.skp x) s =
        .next (s.halt { code := .keyRange, pc := s.pc, opcode := encode (.skp x), info := (s.readV x).setWidth 16 }) ∧
      exec (.sknp x) s =
        .next (s.halt { code := .keyRange, pc := s.pc, opcode := encode (.sknp x), info := (s.readV x).setWidth 16 })) ∧
    (s.params.keyIndex = .lowNibble →
      exec (.skp x) s =
        .next { s with pc := if s.keys.getLsbD ((s.readV x).toNat % 16) = true then s.next4 else s.next2 } ∧
      exec (.sknp x) s =
        .next { s with pc := if s.keys.getLsbD ((s.readV x).toNat % 16) = true then s.next2 else s.next4 }) ∧
    (s.params.keyIndex = .notPressed →
      exec (.skp x) s = .next { s with pc := s.next2 } ∧ exec (.sknp x) s = .next { s with pc := s.next4 })

/-- R215 and R217 (decisions D9, D10): FX0A stores the lowest key with an edge and goes on. -/
def Obligations.WaitStoresLowestPressedKey : Prop :=
  ∀ (x : RegIdx) (k : Nat) (s : State), LowestKeyEdge s.keys s.keysPrev k → ∃ t, exec (.ldVxK x) s = .next t ∧
    (t.readV x).toNat = k ∧ s.OnlyRegs t (· = x) ∧ t.pc = s.next2

/-- R215: with no edge FX0A waits, pc and all else unchanged. -/
def Obligations.WaitHoldsPc : Prop :=
  ∀ (x : RegIdx) (s : State), (∀ k, ¬ KeyEdge s.keys s.keysPrev k) →
    exec (.ldVxK x) s = .next { s with executor := .awaitingKey x }

/-- R216: a cycle in AwaitingKey fetches nothing; the lowest edge is stored, pc advances once and the core runs again; without an
edge only the sampled keys change (decision D9). -/
def Obligations.AwaitedKeyResumes : Prop :=
  ∀ (s : State) (x : RegIdx) (keys : Keys) (rnd : Option Byte) (later : List HostStep),
    s.executor = .awaitingKey x → s.schedule = .cycle keys rnd :: later →
    (∀ k, LowestKeyEdge keys s.keysPrev k → ∃ t, step s = .next t ∧ (t.readV x).toNat = k ∧
      (∀ r, r ≠ x → t.readV r = s.readV r) ∧ t.pc = s.next2 ∧
      t = { s.after later with
        v := t.v, pc := t.pc, executor := .running, keys := keys, rnd := rnd, keysPrev := keys }) ∧
    ((∀ k, ¬ KeyEdge keys s.keysPrev k) →
      step s = .next { s.after later with keys := keys, rnd := rnd, keysPrev := keys })

/-- R107, R218, R227: any interleaving of ticks, display reads and cycles whose keys are just the held ones leaves the wait, pc, V,
I, the stack, memory and the display as they are, while each tick still counts both timers down. -/
def Obligations.WaitSurvivesInterleaving : Prop :=
  ∀ (s : State) (x : RegIdx), s.executor = .awaitingKey x →
    (∀ h ∈ s.schedule, h = .tick ∨ h = .dispRead ∨ ∃ rnd, h = .cycle s.keysPrev rnd) →
    ∃ t, Sys2Proof.core.run s.schedule.length s = .next t ∧ t.schedule = [] ∧
      t.executor = .awaitingKey x ∧ t.pc = s.pc ∧ t.v = s.v ∧ t.i = s.i ∧ t.sp = s.sp ∧ t.stack = s.stack ∧
      t.mem = s.mem ∧ t.disp = s.disp ∧ t.faults = s.faults ∧
      t.dt.toNat = s.dt.toNat - s.schedule.count .tick ∧ t.st.toNat = s.st.toNat - s.schedule.count .tick

/-- R213: the delay timer as it stands. -/
def Obligations.DelayTimerIsRead : Prop :=
  ∀ (x : RegIdx) (s : State), ∃ t, exec (.ldVxDt x) s = .next t ∧ t.readV x = s.dt ∧
    s.OnlyRegs t (· = x) ∧ t.pc = s.next2

/-- R219 and R220: the timer is written, the buzzer is on exactly when the value written to ST is not 0, and nothing else but pc
changes. -/
def Obligations.TimersAreWritten : Prop :=
  ∀ (x : RegIdx) (s : State),
    exec (.ldDtVx x) s = .next { s with dt := s.readV x, pc := s.next2 } ∧
    ∃ t, exec (.ldStVx x) s = .next t ∧ (t.buzzer = true ↔ s.readV x ≠ 0) ∧
      t = { s with st := s.readV x, pc := s.next2 }

/-- R224: a tick counts each timer down by 1, never below 0, and changes nothing else; the buzzer follows ST. -/
def Obligations.TickCountsDown : Prop :=
  ∀ (s : State) (later : List HostStep), s.schedule = .tick :: later → s.isHalted = false →
    ∃ t, step s = .next t ∧ t.dt.toNat = s.dt.toNat - 1 ∧ t.st.toNat = s.st.toNat - 1 ∧
      (t.buzzer = true ↔ s.st.toNat > 1) ∧ t = { s.after later with dt := t.dt, st := t.st }

/-- R228: `n` ticks take `n` from each timer, and each reads 0 from then on. -/
def Obligations.TicksReachZeroAndStay : Prop :=
  ∀ (n : Nat) (s : State) (later : List HostStep),
    s.schedule = List.replicate n .tick ++ later → s.isHalted = false →
    ∃ t, Sys2Proof.core.run n s = .next t ∧ t.dt.toNat = s.dt.toNat - n ∧ t.st.toNat = s.st.toNat - n ∧
      t.schedule = later

/-- R222, R106: over any step the delay timer changes only by a tick, by a reset or by an FX15 that is run. That a reset leaves it 0
is R32 and R270, by decision D2 (log 5). -/
def Obligations.DelayTimerChangesOnlyByTickResetOrWrite : Prop :=
  ∀ s t : State, step s = .next t → t.dt = s.dt ∨
    (∃ later, s.schedule = .tick :: later ∧ t.dt.toNat = s.dt.toNat - 1) ∨
    (∃ later, s.schedule = .reset :: later ∧ t.dt = 0) ∨
    (∃ x rest, s.executor = .running ∧ decode s.fetchBytes = .instr (.ldDtVx x) rest ∧ t.dt = s.readV x)

/-! ## Whole-machine rules over all instructions -/

/-- Every instruction answers a next state, on every state. That the faults the spec gives an instruction are next states and none is
a fault outcome is the model's reading (log 16). -/
def Obligations.EveryInstructionAnswersNext : Prop := ∀ (i : Instr) (s : State), ∃ t, exec i s = .next t

/-- R103 (the wrap is decision D4): an instruction that neither redirects, skips nor waits moves pc to next2, unless a fatal fault
halts it. -/
def Obligations.OtherInstructionsAdvancePc : Prop :=
  ∀ (i : Instr) (s t : State), exec i s = .next t → t.isHalted = false →
    i ≠ .ret → (∀ nnn, i ≠ .jp nnn ∧ i ≠ .call nnn ∧ i ≠ .jpV0 nnn) →
    (∀ x kk, i ≠ .seImm x kk ∧ i ≠ .sneImm x kk) → (∀ x y, i ≠ .seReg x y ∧ i ≠ .sneReg x y) →
    (∀ x, i ≠ .skp x ∧ i ≠ .sknp x ∧ i ≠ .ldVxK x) → t.pc.toNat = (s.pc.toNat + 2) % 0x1000

/-- R106, R110, R34, R61: what instructions leave alone. Memory changes only by FX33 and FX55, the display and dirty only by 00E0
and DXYN, the stack and sp only by 2NNN and 00EE, I only by ANNN, FX1E and FX29, DT only by FX15, ST only by FX18; the inputs, the
host's schedule, keys_prev, the loader's outputs and the parameters by none. -/
def Obligations.InstructionsKeepOtherState : Prop :=
  ∀ (i : Instr) (s t : State), exec i s = .next t →
    ((∀ x, i ≠ .ldB x ∧ i ≠ .storeRegs x) → ∀ a, t.readByte a = s.readByte a) ∧
    (i ≠ .cls → (∀ x y n, i ≠ .drw x y n) → t.disp = s.disp ∧ t.dirty = s.dirty) ∧
    (i ≠ .ret → (∀ nnn, i ≠ .call nnn) → t.sp = s.sp ∧ t.stack = s.stack) ∧
    ((∀ nnn, i ≠ .ldI nnn) → (∀ x, i ≠ .addI x ∧ i ≠ .ldF x) → t.i = s.i) ∧
    ((∀ x, i ≠ .ldDtVx x) → t.dt = s.dt) ∧ ((∀ x, i ≠ .ldStVx x) → t.st = s.st) ∧
    t.keysPrev = s.keysPrev ∧ t.keys = s.keys ∧ t.rnd = s.rnd ∧ t.schedule = s.schedule ∧ t.romLen = s.romLen ∧
    t.loadError = s.loadError ∧ t.params = s.params ∧ t.justReset = s.justReset

/-- R246 and R252 (decision D17): an instruction that appends to the fault channel appends one record, of this instruction, halts
with it, and changes nothing else; one that does not append leaves the channel and does not halt. -/
def Obligations.InstructionFaultsArePrecise : Prop :=
  ∀ (i : Instr) (s t : State), s.executor = .running → exec i s = .next t →
    (t.faults = s.faults ∧ t.isHalted = false) ∨
    (∃ f, t = s.halt f ∧ f.pc = s.pc ∧ f.opcode = encode i ∧ f.code ≠ .decode ∧ f.code ≠ .load)

/-- R108 and R254 (decision D17): a halted core takes no cycle, no tick and no display read; its state is frozen (log 10). -/
def Obligations.HaltedCoreIsFrozen : Prop :=
  ∀ (s : State) (h : HostStep) (later : List HostStep), s.isHalted = true → s.schedule = h :: later →
    h ≠ .reset → (∀ src, h ≠ .load src) → step s = .next (s.after later)

/-- R270 and R69 (the values are decisions D1 to D3 and D9, log 5): reset leaves any state, Halted too, for the reset values, and
memory reads as the font at 0x050 and zero elsewhere. The parameters stay (log 15). -/
def Obligations.ResetLeavesAnyState : Prop :=
  ∀ (s : State) (later : List HostStep), s.schedule = .reset :: later → ∃ t, step s = .next t ∧
    (∀ r, t.readV r = 0) ∧ t.i = 0 ∧ t.pc = 0x200 ∧ t.sp = 0 ∧ (∀ k : Fin 16, t.stack[k] = 0) ∧ t.dt = 0 ∧ t.st = 0 ∧
    (∀ i, i < 2048 → dispCell t.disp i = false) ∧ t.dirty = false ∧ t.executor = .running ∧ t.keysPrev = 0 ∧
    t.faults = [] ∧ t.romLen = 0 ∧ t.params = s.params ∧
    (∀ g r : Nat, (hg : g < 16) → (hr : r < 5) →
      t.readByte (BitVec.ofNat 16 (0x050 + 5 * g + r)) = s.params.font[g][r]) ∧
    (∀ a : Word, a.toNat < 0x1000 → (a.toNat < 0x050 ∨ 0x0A0 ≤ a.toNat) → t.readByte a = 0)

/-- R273: a valid image is copied verbatim to 0x200, its length recorded, and nothing else changes. -/
def Obligations.LoadCopiesImage : Prop :=
  ∀ (s : State) (bytes : List Byte) (later : List HostStep), Memory.wf s.params.font s.mem = true →
    s.justReset = true → s.schedule = .load (.image bytes) :: later → 1 ≤ bytes.length → bytes.length ≤ 3584 →
    ∃ t, step s = .next t ∧ (∀ k b, bytes[k]? = some b → t.readByte (BitVec.ofNat 16 (0x200 + k)) = b) ∧
      (∀ a : Word, a.toNat < 0x1000 → (a.toNat < 0x200 ∨ 0x200 + bytes.length ≤ a.toNat) →
        t.readByte a = s.readByte a) ∧
      t.romLen = bytes.length ∧ t = { s.after later with mem := t.mem, romLen := t.romLen }

/-- R274, R249 and R241: an empty, an oversized and an unreadable image write nothing and end in a LoadError with the declared
length (code 6 by decision D21); the core is halted with it, as a fatal fault is (log 8). For a length that needs more than 16 bits
the recorded info is free (log 9). Keeping load_error in the state, and reporting an unreadable source as that before its length is
looked at, so that one of length 0 is not empty, are the model's choice (log 17). -/
def Obligations.LoadErrorWritesNothing : Prop :=
  ∀ (s : State) (src : LoadSource) (len : Nat) (later : List HostStep), s.justReset = true →
    s.schedule = .load src :: later →
    (src = .unreadable len ∨ ∃ bytes, src = .image bytes ∧ bytes.length = len ∧ (len = 0 ∨ 3584 < len)) →
    ∃ t info cause, step s = .next t ∧ (len < 0x10000 → info.toNat = len) ∧
      (cause = .unreadable ↔ src = .unreadable len) ∧ (cause = .empty ↔ src = .image []) ∧
      t = { s.after later with
        faults := s.faults ++ [{ code := .load, pc := 0, opcode := 0, info := info }]
        executor := .halted { code := .load, pc := 0, opcode := 0, info := info }
        loadError := some { cause := cause, length := len } }

/-! ## Invariants -/

/-- The invariant holds at reset, whatever the parameters. -/
def Obligations.ResetMeetsInvariant : Prop := ∀ p : Params, (State.resetWith p).Inv ∧ (State.resetWith p).LowIntact

/-- R26, R28, R33, R241: every step of every kind keeps the invariant. -/
def Obligations.StepKeepsInvariant : Prop := ∀ s t : State, s.Inv → step s = .next t → t.Inv

/-- R66, R67, R68: unless LOW_WRITE_POLICY is store (decision D7), no step changes a byte below 0x200: the font is never
overwritten. -/
def Obligations.FontIsNeverOverwritten : Prop :=
  ∀ s t : State, s.params.lowWrite ≠ .store → s.LowIntact → step s = .next t → t.LowIntact

/-- R49: the parameters are not state; no step, not even reset, changes them (log 4, log 15). -/
def Obligations.ParametersNeverChange : Prop := ∀ s t : State, step s = .next t → t.params = s.params
end

