-- ==== Sys2Proof/Laws/State.lean ====
section
/-! SUPPORT. What each update of the state does to each field, one lemma each. -/

namespace Sys2Proof.Machine

section
variable (s : State) (x : RegIdx) (b : Byte)
@[simp] theorem writeV_v : (s.writeV x b).v = s.v.set x b := rfl
@[simp] theorem writeV_i : (s.writeV x b).i = s.i := rfl
@[simp] theorem writeV_pc : (s.writeV x b).pc = s.pc := rfl
@[simp] theorem writeV_sp : (s.writeV x b).sp = s.sp := rfl
@[simp] theorem writeV_stack : (s.writeV x b).stack = s.stack := rfl
@[simp] theorem writeV_dt : (s.writeV x b).dt = s.dt := rfl
@[simp] theorem writeV_st : (s.writeV x b).st = s.st := rfl
@[simp] theorem writeV_mem : (s.writeV x b).mem = s.mem := rfl
@[simp] theorem writeV_disp : (s.writeV x b).disp = s.disp := rfl
@[simp] theorem writeV_dirty : (s.writeV x b).dirty = s.dirty := rfl
@[simp] theorem writeV_executor : (s.writeV x b).executor = s.executor := rfl
@[simp] theorem writeV_keysPrev : (s.writeV x b).keysPrev = s.keysPrev := rfl
@[simp] theorem writeV_faults : (s.writeV x b).faults = s.faults := rfl
@[simp] theorem writeV_romLen : (s.writeV x b).romLen = s.romLen := rfl
@[simp] theorem writeV_loadError : (s.writeV x b).loadError = s.loadError := rfl
@[simp] theorem writeV_params : (s.writeV x b).params = s.params := rfl
@[simp] theorem writeV_schedule : (s.writeV x b).schedule = s.schedule := rfl
@[simp] theorem writeV_keys : (s.writeV x b).keys = s.keys := rfl
@[simp] theorem writeV_rnd : (s.writeV x b).rnd = s.rnd := rfl
@[simp] theorem writeV_draws : (s.writeV x b).draws = s.draws := rfl
@[simp] theorem writeV_justReset : (s.writeV x b).justReset = s.justReset := rfl
end

section
variable (s : State) (a : Word)
@[simp] theorem writeI_v : (s.writeI a).v = s.v := rfl
@[simp] theorem writeI_i : (s.writeI a).i = maskAddr a := rfl
@[simp] theorem writeI_pc : (s.writeI a).pc = s.pc := rfl
@[simp] theorem writeI_sp : (s.writeI a).sp = s.sp := rfl
@[simp] theorem writeI_stack : (s.writeI a).stack = s.stack := rfl
@[simp] theorem writeI_dt : (s.writeI a).dt = s.dt := rfl
@[simp] theorem writeI_st : (s.writeI a).st = s.st := rfl
@[simp] theorem writeI_mem : (s.writeI a).mem = s.mem := rfl
@[simp] theorem writeI_disp : (s.writeI a).disp = s.disp := rfl
@[simp] theorem writeI_dirty : (s.writeI a).dirty = s.dirty := rfl
@[simp] theorem writeI_executor : (s.writeI a).executor = s.executor := rfl
@[simp] theorem writeI_keysPrev : (s.writeI a).keysPrev = s.keysPrev := rfl
@[simp] theorem writeI_faults : (s.writeI a).faults = s.faults := rfl
@[simp] theorem writeI_romLen : (s.writeI a).romLen = s.romLen := rfl
@[simp] theorem writeI_loadError : (s.writeI a).loadError = s.loadError := rfl
@[simp] theorem writeI_params : (s.writeI a).params = s.params := rfl
@[simp] theorem writeI_schedule : (s.writeI a).schedule = s.schedule := rfl
@[simp] theorem writeI_keys : (s.writeI a).keys = s.keys := rfl
@[simp] theorem writeI_rnd : (s.writeI a).rnd = s.rnd := rfl
@[simp] theorem writeI_draws : (s.writeI a).draws = s.draws := rfl
@[simp] theorem writeI_justReset : (s.writeI a).justReset = s.justReset := rfl
end

section
variable (s : State) (a : Word)
@[simp] theorem setPc_v : (s.setPc a).v = s.v := rfl
@[simp] theorem setPc_i : (s.setPc a).i = s.i := rfl
@[simp] theorem setPc_pc : (s.setPc a).pc = maskAddr a := rfl
@[simp] theorem setPc_sp : (s.setPc a).sp = s.sp := rfl
@[simp] theorem setPc_stack : (s.setPc a).stack = s.stack := rfl
@[simp] theorem setPc_dt : (s.setPc a).dt = s.dt := rfl
@[simp] theorem setPc_st : (s.setPc a).st = s.st := rfl
@[simp] theorem setPc_mem : (s.setPc a).mem = s.mem := rfl
@[simp] theorem setPc_disp : (s.setPc a).disp = s.disp := rfl
@[simp] theorem setPc_dirty : (s.setPc a).dirty = s.dirty := rfl
@[simp] theorem setPc_executor : (s.setPc a).executor = s.executor := rfl
@[simp] theorem setPc_keysPrev : (s.setPc a).keysPrev = s.keysPrev := rfl
@[simp] theorem setPc_faults : (s.setPc a).faults = s.faults := rfl
@[simp] theorem setPc_romLen : (s.setPc a).romLen = s.romLen := rfl
@[simp] theorem setPc_loadError : (s.setPc a).loadError = s.loadError := rfl
@[simp] theorem setPc_params : (s.setPc a).params = s.params := rfl
@[simp] theorem setPc_schedule : (s.setPc a).schedule = s.schedule := rfl
@[simp] theorem setPc_keys : (s.setPc a).keys = s.keys := rfl
@[simp] theorem setPc_rnd : (s.setPc a).rnd = s.rnd := rfl
@[simp] theorem setPc_draws : (s.setPc a).draws = s.draws := rfl
@[simp] theorem setPc_justReset : (s.setPc a).justReset = s.justReset := rfl
end

section
variable (s : State)
@[simp] theorem advance_v : (s.advance).v = s.v := rfl
@[simp] theorem advance_i : (s.advance).i = s.i := rfl
@[simp] theorem advance_pc : (s.advance).pc = s.next2 := rfl
@[simp] theorem advance_sp : (s.advance).sp = s.sp := rfl
@[simp] theorem advance_stack : (s.advance).stack = s.stack := rfl
@[simp] theorem advance_dt : (s.advance).dt = s.dt := rfl
@[simp] theorem advance_st : (s.advance).st = s.st := rfl
@[simp] theorem advance_mem : (s.advance).mem = s.mem := rfl
@[simp] theorem advance_disp : (s.advance).disp = s.disp := rfl
@[simp] theorem advance_dirty : (s.advance).dirty = s.dirty := rfl
@[simp] theorem advance_executor : (s.advance).executor = s.executor := rfl
@[simp] theorem advance_keysPrev : (s.advance).keysPrev = s.keysPrev := rfl
@[simp] theorem advance_faults : (s.advance).faults = s.faults := rfl
@[simp] theorem advance_romLen : (s.advance).romLen = s.romLen := rfl
@[simp] theorem advance_loadError : (s.advance).loadError = s.loadError := rfl
@[simp] theorem advance_params : (s.advance).params = s.params := rfl
@[simp] theorem advance_schedule : (s.advance).schedule = s.schedule := rfl
@[simp] theorem advance_keys : (s.advance).keys = s.keys := rfl
@[simp] theorem advance_rnd : (s.advance).rnd = s.rnd := rfl
@[simp] theorem advance_draws : (s.advance).draws = s.draws := rfl
@[simp] theorem advance_justReset : (s.advance).justReset = s.justReset := rfl
end

section
variable (s : State) (a : Word) (b : Byte)
@[simp] theorem pokeByte_v : (s.pokeByte a b).v = s.v := rfl
@[simp] theorem pokeByte_i : (s.pokeByte a b).i = s.i := rfl
@[simp] theorem pokeByte_pc : (s.pokeByte a b).pc = s.pc := rfl
@[simp] theorem pokeByte_sp : (s.pokeByte a b).sp = s.sp := rfl
@[simp] theorem pokeByte_stack : (s.pokeByte a b).stack = s.stack := rfl
@[simp] theorem pokeByte_dt : (s.pokeByte a b).dt = s.dt := rfl
@[simp] theorem pokeByte_st : (s.pokeByte a b).st = s.st := rfl
@[simp] theorem pokeByte_mem : (s.pokeByte a b).mem = Memory.write s.params.font (maskAddr a).toNat b s.mem := rfl
@[simp] theorem pokeByte_disp : (s.pokeByte a b).disp = s.disp := rfl
@[simp] theorem pokeByte_dirty : (s.pokeByte a b).dirty = s.dirty := rfl
@[simp] theorem pokeByte_executor : (s.pokeByte a b).executor = s.executor := rfl
@[simp] theorem pokeByte_keysPrev : (s.pokeByte a b).keysPrev = s.keysPrev := rfl
@[simp] theorem pokeByte_faults : (s.pokeByte a b).faults = s.faults := rfl
@[simp] theorem pokeByte_romLen : (s.pokeByte a b).romLen = s.romLen := rfl
@[simp] theorem pokeByte_loadError : (s.pokeByte a b).loadError = s.loadError := rfl
@[simp] theorem pokeByte_params : (s.pokeByte a b).params = s.params := rfl
@[simp] theorem pokeByte_schedule : (s.pokeByte a b).schedule = s.schedule := rfl
@[simp] theorem pokeByte_keys : (s.pokeByte a b).keys = s.keys := rfl
@[simp] theorem pokeByte_rnd : (s.pokeByte a b).rnd = s.rnd := rfl
@[simp] theorem pokeByte_draws : (s.pokeByte a b).draws = s.draws := rfl
@[simp] theorem pokeByte_justReset : (s.pokeByte a b).justReset = s.justReset := rfl
end

section
variable (s : State) (f : FaultRecord)
@[simp] theorem record_v : (s.record f).v = s.v := rfl
@[simp] theorem record_i : (s.record f).i = s.i := rfl
@[simp] theorem record_pc : (s.record f).pc = s.pc := rfl
@[simp] theorem record_sp : (s.record f).sp = s.sp := rfl
@[simp] theorem record_stack : (s.record f).stack = s.stack := rfl
@[simp] theorem record_dt : (s.record f).dt = s.dt := rfl
@[simp] theorem record_st : (s.record f).st = s.st := rfl
@[simp] theorem record_mem : (s.record f).mem = s.mem := rfl
@[simp] theorem record_disp : (s.record f).disp = s.disp := rfl
@[simp] theorem record_dirty : (s.record f).dirty = s.dirty := rfl
@[simp] theorem record_executor : (s.record f).executor = s.executor := rfl
@[simp] theorem record_keysPrev : (s.record f).keysPrev = s.keysPrev := rfl
@[simp] theorem record_faults : (s.record f).faults = s.faults ++ [f] := rfl
@[simp] theorem record_romLen : (s.record f).romLen = s.romLen := rfl
@[simp] theorem record_loadError : (s.record f).loadError = s.loadError := rfl
@[simp] theorem record_params : (s.record f).params = s.params := rfl
@[simp] theorem record_schedule : (s.record f).schedule = s.schedule := rfl
@[simp] theorem record_keys : (s.record f).keys = s.keys := rfl
@[simp] theorem record_rnd : (s.record f).rnd = s.rnd := rfl
@[simp] theorem record_draws : (s.record f).draws = s.draws := rfl
@[simp] theorem record_justReset : (s.record f).justReset = s.justReset := rfl
end

section
variable (s : State) (f : FaultRecord)
@[simp] theorem halt_v : (s.halt f).v = s.v := rfl
@[simp] theorem halt_i : (s.halt f).i = s.i := rfl
@[simp] theorem halt_pc : (s.halt f).pc = s.pc := rfl
@[simp] theorem halt_sp : (s.halt f).sp = s.sp := rfl
@[simp] theorem halt_stack : (s.halt f).stack = s.stack := rfl
@[simp] theorem halt_dt : (s.halt f).dt = s.dt := rfl
@[simp] theorem halt_st : (s.halt f).st = s.st := rfl
@[simp] theorem halt_mem : (s.halt f).mem = s.mem := rfl
@[simp] theorem halt_disp : (s.halt f).disp = s.disp := rfl
@[simp] theorem halt_dirty : (s.halt f).dirty = s.dirty := rfl
@[simp] theorem halt_executor : (s.halt f).executor = .halted f := rfl
@[simp] theorem halt_keysPrev : (s.halt f).keysPrev = s.keysPrev := rfl
@[simp] theorem halt_faults : (s.halt f).faults = s.faults ++ [f] := rfl
@[simp] theorem halt_romLen : (s.halt f).romLen = s.romLen := rfl
@[simp] theorem halt_loadError : (s.halt f).loadError = s.loadError := rfl
@[simp] theorem halt_params : (s.halt f).params = s.params := rfl
@[simp] theorem halt_schedule : (s.halt f).schedule = s.schedule := rfl
@[simp] theorem halt_keys : (s.halt f).keys = s.keys := rfl
@[simp] theorem halt_rnd : (s.halt f).rnd = s.rnd := rfl
@[simp] theorem halt_draws : (s.halt f).draws = s.draws := rfl
@[simp] theorem halt_justReset : (s.halt f).justReset = s.justReset := rfl
end

section
variable (s : State) (op : Word)
@[simp] theorem raiseDecode_v : (s.raiseDecode op).v = s.v := rfl
@[simp] theorem raiseDecode_i : (s.raiseDecode op).i = s.i := rfl
@[simp] theorem raiseDecode_pc : (s.raiseDecode op).pc = s.next2 := rfl
@[simp] theorem raiseDecode_sp : (s.raiseDecode op).sp = s.sp := rfl
@[simp] theorem raiseDecode_stack : (s.raiseDecode op).stack = s.stack := rfl
@[simp] theorem raiseDecode_dt : (s.raiseDecode op).dt = s.dt := rfl
@[simp] theorem raiseDecode_st : (s.raiseDecode op).st = s.st := rfl
@[simp] theorem raiseDecode_mem : (s.raiseDecode op).mem = s.mem := rfl
@[simp] theorem raiseDecode_disp : (s.raiseDecode op).disp = s.disp := rfl
@[simp] theorem raiseDecode_dirty : (s.raiseDecode op).dirty = s.dirty := rfl
@[simp] theorem raiseDecode_executor : (s.raiseDecode op).executor = s.executor := rfl
@[simp] theorem raiseDecode_keysPrev : (s.raiseDecode op).keysPrev = s.keysPrev := rfl
@[simp] theorem raiseDecode_faults : (s.raiseDecode op).faults = s.faults ++ [{ code := .decode, pc := s.pc, opcode := op, info := 0 }] := rfl
@[simp] theorem raiseDecode_romLen : (s.raiseDecode op).romLen = s.romLen := rfl
@[simp] theorem raiseDecode_loadError : (s.raiseDecode op).loadError = s.loadError := rfl
@[simp] theorem raiseDecode_params : (s.raiseDecode op).params = s.params := rfl
@[simp] theorem raiseDecode_schedule : (s.raiseDecode op).schedule = s.schedule := rfl
@[simp] theorem raiseDecode_keys : (s.raiseDecode op).keys = s.keys := rfl
@[simp] theorem raiseDecode_rnd : (s.raiseDecode op).rnd = s.rnd := rfl
@[simp] theorem raiseDecode_draws : (s.raiseDecode op).draws = s.draws := rfl
@[simp] theorem raiseDecode_justReset : (s.raiseDecode op).justReset = s.justReset := rfl
end

section
variable (s : State) (d : Display)
@[simp] theorem writeDisp_v : (s.writeDisp d).v = s.v := rfl
@[simp] theorem writeDisp_i : (s.writeDisp d).i = s.i := rfl
@[simp] theorem writeDisp_pc : (s.writeDisp d).pc = s.pc := rfl
@[simp] theorem writeDisp_sp : (s.writeDisp d).sp = s.sp := rfl
@[simp] theorem writeDisp_stack : (s.writeDisp d).stack = s.stack := rfl
@[simp] theorem writeDisp_dt : (s.writeDisp d).dt = s.dt := rfl
@[simp] theorem writeDisp_st : (s.writeDisp d).st = s.st := rfl
@[simp] theorem writeDisp_mem : (s.writeDisp d).mem = s.mem := rfl
@[simp] theorem writeDisp_disp : (s.writeDisp d).disp = d := rfl
@[simp] theorem writeDisp_dirty : (s.writeDisp d).dirty = true := rfl
@[simp] theorem writeDisp_executor : (s.writeDisp d).executor = s.executor := rfl
@[simp] theorem writeDisp_keysPrev : (s.writeDisp d).keysPrev = s.keysPrev := rfl
@[simp] theorem writeDisp_faults : (s.writeDisp d).faults = s.faults := rfl
@[simp] theorem writeDisp_romLen : (s.writeDisp d).romLen = s.romLen := rfl
@[simp] theorem writeDisp_loadError : (s.writeDisp d).loadError = s.loadError := rfl
@[simp] theorem writeDisp_params : (s.writeDisp d).params = s.params := rfl
@[simp] theorem writeDisp_schedule : (s.writeDisp d).schedule = s.schedule := rfl
@[simp] theorem writeDisp_keys : (s.writeDisp d).keys = s.keys := rfl
@[simp] theorem writeDisp_rnd : (s.writeDisp d).rnd = s.rnd := rfl
@[simp] theorem writeDisp_draws : (s.writeDisp d).draws = s.draws := rfl
@[simp] theorem writeDisp_justReset : (s.writeDisp d).justReset = s.justReset := rfl
end

section
variable (s : State)
@[simp] theorem countDraw_v : (s.countDraw).v = s.v := rfl
@[simp] theorem countDraw_i : (s.countDraw).i = s.i := rfl
@[simp] theorem countDraw_pc : (s.countDraw).pc = s.pc := rfl
@[simp] theorem countDraw_sp : (s.countDraw).sp = s.sp := rfl
@[simp] theorem countDraw_stack : (s.countDraw).stack = s.stack := rfl
@[simp] theorem countDraw_dt : (s.countDraw).dt = s.dt := rfl
@[simp] theorem countDraw_st : (s.countDraw).st = s.st := rfl
@[simp] theorem countDraw_mem : (s.countDraw).mem = s.mem := rfl
@[simp] theorem countDraw_disp : (s.countDraw).disp = s.disp := rfl
@[simp] theorem countDraw_dirty : (s.countDraw).dirty = s.dirty := rfl
@[simp] theorem countDraw_executor : (s.countDraw).executor = s.executor := rfl
@[simp] theorem countDraw_keysPrev : (s.countDraw).keysPrev = s.keysPrev := rfl
@[simp] theorem countDraw_faults : (s.countDraw).faults = s.faults := rfl
@[simp] theorem countDraw_romLen : (s.countDraw).romLen = s.romLen := rfl
@[simp] theorem countDraw_loadError : (s.countDraw).loadError = s.loadError := rfl
@[simp] theorem countDraw_params : (s.countDraw).params = s.params := rfl
@[simp] theorem countDraw_schedule : (s.countDraw).schedule = s.schedule := rfl
@[simp] theorem countDraw_keys : (s.countDraw).keys = s.keys := rfl
@[simp] theorem countDraw_rnd : (s.countDraw).rnd = s.rnd := rfl
@[simp] theorem countDraw_draws : (s.countDraw).draws = s.draws + 1 := rfl
@[simp] theorem countDraw_justReset : (s.countDraw).justReset = s.justReset := rfl
end

section
variable (s : State) (k : Keys) (r : Option Byte)
@[simp] theorem sample_v : (s.sample k r).v = s.v := rfl
@[simp] theorem sample_i : (s.sample k r).i = s.i := rfl
@[simp] theorem sample_pc : (s.sample k r).pc = s.pc := rfl
@[simp] theorem sample_sp : (s.sample k r).sp = s.sp := rfl
@[simp] theorem sample_stack : (s.sample k r).stack = s.stack := rfl
@[simp] theorem sample_dt : (s.sample k r).dt = s.dt := rfl
@[simp] theorem sample_st : (s.sample k r).st = s.st := rfl
@[simp] theorem sample_mem : (s.sample k r).mem = s.mem := rfl
@[simp] theorem sample_disp : (s.sample k r).disp = s.disp := rfl
@[simp] theorem sample_dirty : (s.sample k r).dirty = s.dirty := rfl
@[simp] theorem sample_executor : (s.sample k r).executor = s.executor := rfl
@[simp] theorem sample_keysPrev : (s.sample k r).keysPrev = s.keysPrev := rfl
@[simp] theorem sample_faults : (s.sample k r).faults = s.faults := rfl
@[simp] theorem sample_romLen : (s.sample k r).romLen = s.romLen := rfl
@[simp] theorem sample_loadError : (s.sample k r).loadError = s.loadError := rfl
@[simp] theorem sample_params : (s.sample k r).params = s.params := rfl
@[simp] theorem sample_schedule : (s.sample k r).schedule = s.schedule := rfl
@[simp] theorem sample_keys : (s.sample k r).keys = k := rfl
@[simp] theorem sample_rnd : (s.sample k r).rnd = r := rfl
@[simp] theorem sample_draws : (s.sample k r).draws = s.draws := rfl
@[simp] theorem sample_justReset : (s.sample k r).justReset = s.justReset := rfl
end

section
variable (s : State)
@[simp] theorem endCycle_v : (s.endCycle).v = s.v := rfl
@[simp] theorem endCycle_i : (s.endCycle).i = s.i := rfl
@[simp] theorem endCycle_pc : (s.endCycle).pc = s.pc := rfl
@[simp] theorem endCycle_sp : (s.endCycle).sp = s.sp := rfl
@[simp] theorem endCycle_stack : (s.endCycle).stack = s.stack := rfl
@[simp] theorem endCycle_dt : (s.endCycle).dt = s.dt := rfl
@[simp] theorem endCycle_st : (s.endCycle).st = s.st := rfl
@[simp] theorem endCycle_mem : (s.endCycle).mem = s.mem := rfl
@[simp] theorem endCycle_disp : (s.endCycle).disp = s.disp := rfl
@[simp] theorem endCycle_dirty : (s.endCycle).dirty = s.dirty := rfl
@[simp] theorem endCycle_executor : (s.endCycle).executor = s.executor := rfl
@[simp] theorem endCycle_keysPrev : (s.endCycle).keysPrev = s.keys := rfl
@[simp] theorem endCycle_faults : (s.endCycle).faults = s.faults := rfl
@[simp] theorem endCycle_romLen : (s.endCycle).romLen = s.romLen := rfl
@[simp] theorem endCycle_loadError : (s.endCycle).loadError = s.loadError := rfl
@[simp] theorem endCycle_params : (s.endCycle).params = s.params := rfl
@[simp] theorem endCycle_schedule : (s.endCycle).schedule = s.schedule := rfl
@[simp] theorem endCycle_keys : (s.endCycle).keys = s.keys := rfl
@[simp] theorem endCycle_rnd : (s.endCycle).rnd = s.rnd := rfl
@[simp] theorem endCycle_draws : (s.endCycle).draws = s.draws := rfl
@[simp] theorem endCycle_justReset : (s.endCycle).justReset = s.justReset := rfl
end

section
variable (s : State)
@[simp] theorem stepTaken_v : (s.stepTaken).v = s.v := rfl
@[simp] theorem stepTaken_i : (s.stepTaken).i = s.i := rfl
@[simp] theorem stepTaken_pc : (s.stepTaken).pc = s.pc := rfl
@[simp] theorem stepTaken_sp : (s.stepTaken).sp = s.sp := rfl
@[simp] theorem stepTaken_stack : (s.stepTaken).stack = s.stack := rfl
@[simp] theorem stepTaken_dt : (s.stepTaken).dt = s.dt := rfl
@[simp] theorem stepTaken_st : (s.stepTaken).st = s.st := rfl
@[simp] theorem stepTaken_mem : (s.stepTaken).mem = s.mem := rfl
@[simp] theorem stepTaken_disp : (s.stepTaken).disp = s.disp := rfl
@[simp] theorem stepTaken_dirty : (s.stepTaken).dirty = s.dirty := rfl
@[simp] theorem stepTaken_executor : (s.stepTaken).executor = s.executor := rfl
@[simp] theorem stepTaken_keysPrev : (s.stepTaken).keysPrev = s.keysPrev := rfl
@[simp] theorem stepTaken_faults : (s.stepTaken).faults = s.faults := rfl
@[simp] theorem stepTaken_romLen : (s.stepTaken).romLen = s.romLen := rfl
@[simp] theorem stepTaken_loadError : (s.stepTaken).loadError = s.loadError := rfl
@[simp] theorem stepTaken_params : (s.stepTaken).params = s.params := rfl
@[simp] theorem stepTaken_schedule : (s.stepTaken).schedule = s.schedule := rfl
@[simp] theorem stepTaken_keys : (s.stepTaken).keys = s.keys := rfl
@[simp] theorem stepTaken_rnd : (s.stepTaken).rnd = s.rnd := rfl
@[simp] theorem stepTaken_draws : (s.stepTaken).draws = s.draws := rfl
@[simp] theorem stepTaken_justReset : (s.stepTaken).justReset = false := rfl
end

end Sys2Proof.Machine
end

