-- ==== Sys2Proof/Laws/Memory.lean ====
section
/-! SUPPORT. Memory: read after write, the frame of a write, and that every memory operation keeps the canonical form. -/

namespace Sys2Proof.Machine

theorem maskAddr_toNat (a : Word) : (maskAddr a).toNat = a.toNat % 0x1000 := by
  simp only [maskAddr, BitVec.toNat_and]
  exact Nat.and_two_pow_sub_one_eq_mod a.toNat 12

theorem maskAddr_lt (a : Word) : (maskAddr a).toNat < 0x1000 := by
  rw [maskAddr_toNat]; omega

@[simp] theorem maskAddr_maskAddr (a : Word) : maskAddr (maskAddr a) = maskAddr a := by
  apply BitVec.eq_of_toNat_eq; simp only [maskAddr_toNat]; omega

theorem maskAddr_of_lt (a : Word) (h : a.toNat < 0x1000) : maskAddr a = a := by
  apply BitVec.eq_of_toNat_eq; rw [maskAddr_toNat]; omega

/-- The next byte's address. -/
theorem succ_add_ofNat (a : Word) (k : Nat) : a + 1 + BitVec.ofNat 16 k = a + BitVec.ofNat 16 (k + 1) := by
  apply BitVec.eq_of_toNat_eq
  simp only [BitVec.toNat_add, BitVec.toNat_ofNat, show (1 : Word).toNat = 1 from rfl]
  omega

theorem atI_toNat (s : State) (k : Nat) : (s.atI k).toNat = (s.i.toNat + k) % 0x1000 := by
  simp only [State.atI, maskAddr_toNat, BitVec.toNat_add, BitVec.toNat_ofNat]
  omega

/-- Two bytes of one access lie at different addresses, wrapping included (20_memory.md R71). -/
theorem target_ne {j k : Nat} (a : Word) (hj : j < 0x1000) (hk : k < 0x1000) (h : j ≠ k) :
    maskAddr (a + BitVec.ofNat 16 j) ≠ maskAddr (a + BitVec.ofNat 16 k) := by
  intro he
  have := congrArg BitVec.toNat he
  simp only [maskAddr_toNat, BitVec.toNat_add, BitVec.toNat_ofNat] at this
  omega

section
variable {font : Font}

@[simp] theorem Memory.read_cons_self (a : Nat) (v : Byte) (rest : Memory)
    (h : Memory.read font rest a = unlistedByte font a) : Memory.read font (Memory.cons font a v rest) a = v := by
  unfold Memory.cons
  split
  · next he => rw [h, he]
  · simp [Memory.read]

theorem Memory.read_cons_other {a b : Nat} (v : Byte) (rest : Memory) (h : a ≠ b) :
    Memory.read font (Memory.cons font a v rest) b = Memory.read font rest b := by
  unfold Memory.cons
  split
  · rfl
  · simp [Memory.read, h]

/-- An address below every listed one reads as unlisted. -/
theorem Memory.read_of_lt {m : Memory} {lo a : Nat} (h : Memory.wfFrom font lo m = true) (ha : a < lo) :
    Memory.read font m a = unlistedByte font a := by
  induction m generalizing lo with
  | nil => rfl
  | cons e rest ih =>
    obtain ⟨b, w⟩ := e
    simp only [Memory.wfFrom, Bool.and_eq_true, decide_eq_true_eq] at h
    have hb : b ≠ a := by omega
    simp only [Memory.read, hb, if_false]
    exact ih h.2 (by omega)

theorem Memory.wfFrom_mono {m : Memory} {lo lo' : Nat} (h : Memory.wfFrom font lo m = true) (hl : lo' ≤ lo) :
    Memory.wfFrom font lo' m = true := by
  cases m with
  | nil => rfl
  | cons e rest =>
    simp only [Memory.wfFrom, Bool.and_eq_true, decide_eq_true_eq] at h ⊢
    exact ⟨⟨by omega, h.1.2⟩, h.2⟩

theorem Memory.wfFrom_cons {m : Memory} {lo a : Nat} (v : Byte) (ha : a < 0x1000) (hl : lo ≤ a)
    (h : Memory.wfFrom font (a + 1) m = true) : Memory.wfFrom font lo (Memory.cons font a v m) = true := by
  unfold Memory.cons
  split
  · exact Memory.wfFrom_mono h (by omega)
  · next hv => simp [Memory.wfFrom, hl, ha, hv, h]

theorem Memory.wfFrom_write {m : Memory} {lo a : Nat} (v : Byte) (ha : a < 0x1000) (hl : lo ≤ a)
    (h : Memory.wfFrom font lo m = true) : Memory.wfFrom font lo (Memory.write font a v m) = true := by
  induction m generalizing lo with
  | nil => exact Memory.wfFrom_cons v ha hl rfl
  | cons e rest ih =>
    obtain ⟨b, w⟩ := e
    have hbr := h
    simp only [Memory.wfFrom, Bool.and_eq_true, decide_eq_true_eq] at h
    unfold Memory.write
    split
    · next hlt =>
      refine Memory.wfFrom_cons v ha hl ?_
      simp only [Memory.wfFrom, Bool.and_eq_true, decide_eq_true_eq]
      exact ⟨⟨by omega, h.1.2⟩, h.2⟩
    · split
      · next he => subst he; exact Memory.wfFrom_cons v ha hl h.2
      · simp only [Memory.wfFrom, Bool.and_eq_true, decide_eq_true_eq]
        exact ⟨h.1, ih (by omega) h.2⟩

/-- A write keeps the canonical form. -/
theorem Memory.wf_write {m : Memory} {a : Nat} (v : Byte) (ha : a < 0x1000) (h : Memory.wf font m = true) :
    Memory.wf font (Memory.write font a v m) = true := Memory.wfFrom_write v ha (Nat.zero_le _) h

theorem Memory.read_write_self_from {m : Memory} {lo a : Nat} (v : Byte) (h : Memory.wfFrom font lo m = true) :
    Memory.read font (Memory.write font a v m) a = v := by
  induction m generalizing lo with
  | nil => exact Memory.read_cons_self a v [] rfl
  | cons e rest ih =>
    obtain ⟨b, w⟩ := e
    have hw := h
    simp only [Memory.wfFrom, Bool.and_eq_true, decide_eq_true_eq] at h
    unfold Memory.write
    split
    · next hlt =>
      refine Memory.read_cons_self a v _ (Memory.read_of_lt (lo := b) ?_ hlt)
      simp only [Memory.wfFrom, Bool.and_eq_true, decide_eq_true_eq]
      exact ⟨⟨by omega, h.1.2⟩, h.2⟩
    · split
      · next he =>
        subst he
        exact Memory.read_cons_self a v rest (Memory.read_of_lt h.2 (by omega))
      · next hne =>
        have hba : b ≠ a := fun hh => hne hh.symm
        simp only [Memory.read, hba, if_false]
        exact ih h.2

/-- A read after a write to the same address gives the value written. -/
theorem Memory.read_write_self {m : Memory} (a : Nat) (v : Byte) (h : Memory.wf font m = true) :
    Memory.read font (Memory.write font a v m) a = v := Memory.read_write_self_from v h

/-- A write leaves every other address alone, in any memory. -/
theorem Memory.read_write_other {m : Memory} {a b : Nat} (v : Byte) (hab : a ≠ b) :
    Memory.read font (Memory.write font a v m) b = Memory.read font m b := by
  induction m with
  | nil => exact Memory.read_cons_other v [] hab
  | cons e rest ih =>
    obtain ⟨c, w⟩ := e
    unfold Memory.write
    split
    · exact Memory.read_cons_other v _ hab
    · split
      · next he =>
        subst he
        rw [Memory.read_cons_other v rest hab]
        simp [Memory.read, hab]
      · simp only [Memory.read, ih]

/-- Two canonical memories that read alike at every address are equal data. -/
theorem Memory.ext_of_read {m n : Memory} {lo : Nat} (hm : Memory.wfFrom font lo m = true)
    (hn : Memory.wfFrom font lo n = true) (h : ∀ a, Memory.read font m a = Memory.read font n a) : m = n := by
  induction m generalizing lo n with
  | nil =>
    cases n with
    | nil => rfl
    | cons e rest =>
      obtain ⟨b, w⟩ := e
      simp only [Memory.wfFrom, Bool.and_eq_true, decide_eq_true_eq] at hn
      have := h b
      simp only [Memory.read, if_true] at this
      exact absurd this.symm hn.1.2.2
  | cons e rest ih =>
    obtain ⟨a, v⟩ := e
    have hm' := hm
    simp only [Memory.wfFrom, Bool.and_eq_true, decide_eq_true_eq] at hm'
    cases n with
    | nil =>
      have := h a
      simp only [Memory.read, if_true] at this
      exact absurd this hm'.1.2.2
    | cons e' rest' =>
      obtain ⟨b, w⟩ := e'
      have hn' := hn
      simp only [Memory.wfFrom, Bool.and_eq_true, decide_eq_true_eq] at hn'
      have hab : a = b := by
        rcases Nat.lt_trichotomy a b with hlt | he | hgt
        · have := h a
          rw [Memory.read_of_lt (m := (b, w) :: rest') (lo := b) (by
            simp only [Memory.wfFrom, Bool.and_eq_true, decide_eq_true_eq]; exact ⟨⟨by omega, hn'.1.2⟩, hn'.2⟩) hlt] at this
          simp only [Memory.read, if_true] at this
          exact absurd this hm'.1.2.2
        · exact he
        · have := h b
          rw [Memory.read_of_lt (m := (a, v) :: rest) (lo := a) (by
            simp only [Memory.wfFrom, Bool.and_eq_true, decide_eq_true_eq]; exact ⟨⟨by omega, hm'.1.2⟩, hm'.2⟩) hgt] at this
          simp only [Memory.read, if_true] at this
          exact absurd this.symm hn'.1.2.2
      subst hab
      have hv : v = w := by have := h a; simpa [Memory.read] using this
      subst hv
      rw [ih hm'.2 hn'.2]
      intro c
      by_cases hc : a = c
      · subst hc
        rw [Memory.read_of_lt hm'.2 (by omega), Memory.read_of_lt hn'.2 (by omega)]
      · have := h c
        simpa [Memory.read, hc] using this

end

/-! ## The state's byte reads and writes -/

theorem readByte_maskAddr (s : State) (a : Word) : s.readByte (maskAddr a) = s.readByte a := by
  simp [State.readByte]

theorem readByte_congr {s t : State} (hm : t.mem = s.mem) (hp : t.params = s.params) (a : Word) :
    t.readByte a = s.readByte a := by simp [State.readByte, hm, hp]

theorem readByte_pokeByte_self {s : State} {a b : Word} (v : Byte) (hw : Memory.wf s.params.font s.mem = true)
    (h : maskAddr b = maskAddr a) : (s.pokeByte a v).readByte b = v := by
  simp only [State.readByte, pokeByte_params, pokeByte_mem, h]
  exact Memory.read_write_self _ v hw

theorem readByte_pokeByte_other {s : State} {a b : Word} (v : Byte) (h : maskAddr b ≠ maskAddr a) :
    (s.pokeByte a v).readByte b = s.readByte b := by
  simp only [State.readByte, pokeByte_params, pokeByte_mem]
  exact Memory.read_write_other v fun he => h (BitVec.eq_of_toNat_eq he.symm)

theorem pokeByte_wf {s : State} (a : Word) (v : Byte) (hw : Memory.wf s.params.font s.mem = true) :
    Memory.wf (s.pokeByte a v).params.font (s.pokeByte a v).mem = true := Memory.wf_write v (maskAddr_lt a) hw

theorem pokeBytes_eq (s : State) (a : Word) (bs : List Byte) :
    s.pokeBytes a bs = { s with mem := (s.pokeBytes a bs).mem } := by
  induction bs generalizing s a with
  | nil => rfl
  | cons b bs ih => rw [State.pokeBytes, ih]; rfl

theorem pokeBytes_wf {s : State} (a : Word) (bs : List Byte) (hw : Memory.wf s.params.font s.mem = true) :
    Memory.wf s.params.font (s.pokeBytes a bs).mem = true := by
  induction bs generalizing s a with
  | nil => exact hw
  | cons b bs ih => exact ih (s := s.pokeByte a b) (a + 1) (pokeByte_wf a b hw)

/-- An address that no byte of the image lands on reads as before. -/
theorem pokeBytes_read_other {s : State} {a b : Word} {bs : List Byte}
    (h : ∀ k, k < bs.length → maskAddr b ≠ maskAddr (a + BitVec.ofNat 16 k)) :
    (s.pokeBytes a bs).readByte b = s.readByte b := by
  induction bs generalizing s a with
  | nil => rfl
  | cons v bs ih =>
    rw [State.pokeBytes, ih]
    · have h0 := h 0 (by simp)
      simp only [BitVec.add_zero] at h0
      exact readByte_pokeByte_other v h0
    · intro k hk
      rw [succ_add_ofNat]
      exact h (k + 1) (by simpa using hk)

/-- The k-th byte of the image is at the k-th address. -/
theorem pokeBytes_read_target {s : State} {a : Word} {bs : List Byte} {k : Nat}
    (hw : Memory.wf s.params.font s.mem = true) (hlen : bs.length ≤ 0x1000) (hk : k < bs.length) :
    (s.pokeBytes a bs).readByte (a + BitVec.ofNat 16 k) = bs[k] := by
  induction bs generalizing s a k with
  | nil => simp at hk
  | cons v bs ih =>
    simp only [List.length_cons] at hlen hk
    rw [State.pokeBytes]
    cases k with
    | zero =>
      rw [pokeBytes_read_other]
      · simpa using readByte_pokeByte_self (a := a) v hw rfl
      · intro j hj
        rw [succ_add_ofNat]
        exact target_ne a (by omega) (by omega) (by omega)
    | succ k =>
      rw [← succ_add_ofNat, ih (pokeByte_wf a v hw) (by omega) (by omega)]
      rfl

theorem memWrite_eq (s : State) (a : Word) (v : Byte) : s.memWrite a v = { s with mem := (s.memWrite a v).mem } := by
  unfold State.memWrite; split <;> rfl

theorem memWrite_wf {s : State} (a : Word) (v : Byte) (hw : Memory.wf s.params.font s.mem = true) :
    Memory.wf s.params.font (s.memWrite a v).mem = true := by
  unfold State.memWrite; split
  · exact hw
  · exact pokeByte_wf a v hw

theorem memWrite_of_writable {s : State} {a : Word} (v : Byte) (h : isLow a = false ∨ s.params.lowWrite = .store) :
    s.memWrite a v = s.pokeByte a v := by
  unfold State.memWrite; rcases h with h | h <;> simp [h]

theorem memWrite_of_discarded {s : State} {a : Word} (v : Byte) (h : isLow a = true) (hp : s.params.lowWrite ≠ .store) :
    s.memWrite a v = s := by
  unfold State.memWrite; simp [h, hp]

theorem memWrites_eq (s : State) (a : Word) (bs : List Byte) :
    s.memWrites a bs = { s with mem := (s.memWrites a bs).mem } := by
  induction bs generalizing s a with
  | nil => rfl
  | cons b bs ih => rw [State.memWrites, ih, memWrite_eq]

theorem memWrites_wf {s : State} (a : Word) (bs : List Byte) (hw : Memory.wf s.params.font s.mem = true) :
    Memory.wf s.params.font (s.memWrites a bs).mem = true := by
  induction bs generalizing s a with
  | nil => exact hw
  | cons b bs ih =>
    have hp : (s.memWrite a b).params = s.params := by rw [memWrite_eq]
    have := ih (s := s.memWrite a b) (a + 1) (by rw [hp]; exact memWrite_wf a b hw)
    rwa [hp] at this

/-- An address that no target of a store equals reads as before. -/
theorem memWrites_read_other {s : State} {a b : Word} {bs : List Byte}
    (h : ∀ k, k < bs.length → maskAddr b ≠ maskAddr (a + BitVec.ofNat 16 k)) :
    (s.memWrites a bs).readByte b = s.readByte b := by
  induction bs generalizing s a with
  | nil => rfl
  | cons v bs ih =>
    rw [State.memWrites, ih]
    · have h0 := h 0 (by simp)
      simp only [BitVec.add_zero] at h0
      unfold State.memWrite; split
      · rfl
      · exact readByte_pokeByte_other v h0
    · intro k hk
      rw [succ_add_ofNat]
      exact h (k + 1) (by simpa using hk)

/-- The k-th target of a store holds the k-th byte, unless it lies below 0x200 and the policy discards it. -/
theorem memWrites_read_target {s : State} {a : Word} {bs : List Byte} {k : Nat}
    (hw : Memory.wf s.params.font s.mem = true) (hlen : bs.length ≤ 0x1000) (hk : k < bs.length) :
    (s.memWrites a bs).readByte (a + BitVec.ofNat 16 k) =
      if isLow (a + BitVec.ofNat 16 k) = true ∧ s.params.lowWrite ≠ .store then s.readByte (a + BitVec.ofNat 16 k)
      else bs[k] := by
  induction bs generalizing s a k with
  | nil => simp at hk
  | cons v bs ih =>
    have hp : (s.memWrite a v).params = s.params := by rw [memWrite_eq]
    cases k with
    | zero =>
      rw [State.memWrites, memWrites_read_other]
      · simp only [BitVec.add_zero, List.getElem_cons_zero]
        split
        · next h => rw [memWrite_of_discarded v h.1 h.2]
        · next h =>
          rw [memWrite_of_writable v (by
            cases hl : isLow a
            · exact .inl rfl
            · exact .inr (by simpa [hl] using h))]
          exact readByte_pokeByte_self v hw rfl
      · intro j hj
        simp only [List.length_cons] at hlen
        rw [succ_add_ofNat]
        exact target_ne a (by omega) (by omega) (by omega)
    | succ k =>
      have hk' : k < bs.length := by simpa using hk
      have hl' : bs.length ≤ 0x1000 := by simp only [List.length_cons] at hlen; omega
      rw [State.memWrites, ← succ_add_ofNat, ih (by rw [hp]; exact memWrite_wf a v hw) hl' hk', hp]
      split
      · have hne : maskAddr (a + 1 + BitVec.ofNat 16 k) ≠ maskAddr a := by
          simp only [List.length_cons] at hlen
          rw [succ_add_ofNat]
          simpa using target_ne (k := 0) a (show k + 1 < 0x1000 by omega) (by omega) (by omega)
        unfold State.memWrite; split
        · rfl
        · exact readByte_pokeByte_other v hne
      · simp

end Sys2Proof.Machine
end

