-- ==== Sys2Proof/Laws/Ops.lean ====
section
/-! SUPPORT. What each shared operation can do, once: registers, pc, the stack, the fault channel, the store at I, keys, display. -/

namespace Sys2Proof.Machine

/-! ## Registers and pc -/

@[simp] theorem readV_writeV_self (s : State) (x : RegIdx) (b : Byte) : (s.writeV x b).readV x = b := by
  simp [State.readV, State.writeV]

theorem readV_writeV_other {s : State} {x r : RegIdx} (b : Byte) (h : r ≠ x) : (s.writeV x b).readV r = s.readV r := by
  have : x.val ≠ r.val := fun he => h (Fin.ext he.symm)
  simp [State.readV, State.writeV, this]

theorem readV_congr {s t : State} (h : t.v = s.v) (r : RegIdx) : t.readV r = s.readV r := by simp [State.readV, h]

/-- After a flag instruction VF holds the flag, even where VF is the destination. -/
@[simp] theorem readV_writeVFlag_vf (s : State) (x : RegIdx) (b f : Byte) : (s.writeVFlag x b f).readV vf = f := by
  simp [State.writeVFlag]

theorem readV_writeVFlag_self {s : State} {x : RegIdx} (b f : Byte) (h : x ≠ vf) :
    (s.writeVFlag x b f).readV x = b := by
  rw [State.writeVFlag, readV_writeV_other f h, readV_writeV_self]

theorem readV_writeVFlag_other {s : State} {x r : RegIdx} (b f : Byte) (hx : r ≠ x) (hf : r ≠ vf) :
    (s.writeVFlag x b f).readV r = s.readV r := by
  rw [State.writeVFlag, readV_writeV_other f hf, readV_writeV_other b hx]

theorem writeVFlag_eq (s : State) (x : RegIdx) (b f : Byte) :
    s.writeVFlag x b f = { s with v := (s.writeVFlag x b f).v } := rfl

theorem skipIf_eq (s : State) (c : Bool) : s.skipIf c = { s with pc := if c then s.next4 else s.next2 } := by
  unfold State.skipIf; cases c <;> rfl

theorem next2_toNat (s : State) : s.next2.toNat = (s.pc.toNat + 2) % 0x1000 := by
  simp only [State.next2, maskAddr_toNat, BitVec.toNat_add, show (2 : Word).toNat = 2 from rfl]; omega

theorem advances_advance (s : State) : s.Advances s.advance := by
  intro h; rw [show s.advance.pc = s.next2 from rfl, next2_toNat]; omega

theorem next4_toNat (s : State) : s.next4.toNat = (s.pc.toNat + 4) % 0x1000 := by
  simp only [State.next4, maskAddr_toNat, BitVec.toNat_add, show (4 : Word).toNat = 4 from rfl]; omega

/-- The block load: the first `n` registers come from I on, the others stay. -/
theorem loadedV_getElem (s : State) (n k : Nat) (hn : n ≤ 16) (hk : k < 16) :
    (s.loadedV n)[k] = if k < n then s.readByte (s.i + BitVec.ofNat 16 k) else s.v[k] := by
  induction n with
  | zero => simp [State.loadedV]
  | succ n ih =>
    rw [State.loadedV, Vector.getElem_setIfInBounds, ih (by omega)]
    by_cases h : n = k
    · subst h; simp
    · have : (k < n + 1) = (k < n) := propext ⟨fun _ => by omega, fun _ => by omega⟩
      simp [h, this]

theorem firstRegs_length (s : State) (n : Nat) (h : n ≤ 16) : (s.firstRegs n).length = n := by
  simp [State.firstRegs, h]

theorem firstRegs_getElem (s : State) (n k : Nat) (hk : k < n) (hn : n ≤ 16)
    (hl : k < (s.firstRegs n).length) : (s.firstRegs n)[k] = s.v[k] := by
  simp [State.firstRegs]

/-! ## The call stack -/

theorem pushReturn_full {s : State} (h : s.sp.val = 16) : s.pushReturn = none := by
  simp [State.pushReturn, h]

/-- A push that succeeds stores next2 in the free slot and raises sp; nothing else changes. -/
theorem pushReturn_some {s : State} (h : s.sp.val < 16) : ∃ t, s.pushReturn = some t ∧
    t.sp.val = s.sp.val + 1 ∧ t.stack = s.stack.set s.sp.val s.next2 ∧ t = { s with sp := t.sp, stack := t.stack } := by
  simp [State.pushReturn, h]

theorem popReturn_empty {s : State} (h : s.sp.val = 0) : s.popReturn = none := by
  simp [State.popReturn, h]

/-- A pop that succeeds lowers sp and moves the masked top entry to pc; nothing else changes. -/
theorem popReturn_some {s : State} {a : Word} (h : 0 < s.sp.val) (ha : s.stack[s.sp.val - 1]? = some a) :
    ∃ t, s.popReturn = some t ∧ t.sp.val + 1 = s.sp.val ∧ t.pc = maskAddr a ∧ t = { s with sp := t.sp, pc := t.pc } := by
  have hlt : s.sp.val - 1 < 16 := by omega
  rw [Vector.getElem?_eq_getElem hlt] at ha
  simp only [Option.some.injEq] at ha
  have hp : s.popReturn =
      some ({ s with sp := ⟨s.sp.val - 1, by omega⟩ }.setPc (s.stack[s.sp.val - 1]'hlt)) := by
    unfold State.popReturn; rw [dif_pos h]
  refine ⟨_, hp, ?_, ?_, rfl⟩
  · simp only [setPc_sp]; omega
  · simp only [setPc_pc, ha]

/-! ## The store at I -/

theorem isLow_iff (a : Word) : isLow a = true ↔ (maskAddr a).toNat < 0x200 := by
  unfold isLow progBase; exact decide_eq_true_iff

/-- The check finds no low target exactly when there is none. -/
theorem firstLow_none {a : Word} {n : Nat} : firstLow a n = none ↔ ∀ k, k < n → isLow (a + BitVec.ofNat 16 k) = false := by
  induction n generalizing a with
  | zero => simp [firstLow]
  | succ n ih =>
    unfold firstLow
    split
    · next h =>
      refine ⟨fun hh => by simp at hh, fun hh => ?_⟩
      have := hh 0 (by omega)
      simp [h] at this
    · next h =>
      rw [ih]
      constructor
      · intro hh k hk
        cases k with
        | zero => simpa using h
        | succ k => rw [← succ_add_ofNat]; exact hh k (by omega)
      · intro hh k hk; rw [succ_add_ofNat]; exact hh (k + 1) (by omega)

/-- The check finds the lowest low target. -/
theorem firstLow_some {a : Word} {n k : Nat} (hk : k < n) (hl : isLow (a + BitVec.ofNat 16 k) = true)
    (hb : ∀ j, j < k → isLow (a + BitVec.ofNat 16 j) = false) :
    firstLow a n = some (maskAddr (a + BitVec.ofNat 16 k)) := by
  induction n generalizing a k with
  | zero => omega
  | succ n ih =>
    unfold firstLow
    cases k with
    | zero => simp only [BitVec.add_zero] at hl ⊢; simp [hl]
    | succ k =>
      have h0 := hb 0 (by omega)
      simp only [BitVec.add_zero] at h0
      rw [if_neg (by simp [h0]), ← succ_add_ofNat]
      refine ih (by omega) (by rw [succ_add_ofNat]; exact hl) fun j hj => ?_
      rw [succ_add_ofNat]; exact hb (j + 1) (by omega)

/-- Whatever the check reports is a masked address below 0x200. -/
theorem firstLow_lt {a b : Word} {n : Nat} (h : firstLow a n = some b) : b.toNat < 0x200 := by
  induction n generalizing a with
  | zero => simp [firstLow] at h
  | succ n ih =>
    unfold firstLow at h
    split at h
    · next hl => simp only [Option.some.injEq] at h; subst h; exact (isLow_iff a).mp hl
    · exact ih h

/-- A store at I halts with ProtectionFault under policy fault when a target is low, and otherwise writes and advances. -/
theorem storeAtI_cases (s : State) (op : Word) (bs : List Byte) :
    (∃ a, s.params.lowWrite = .fault ∧ firstLow s.i bs.length = some a ∧
      s.storeAtI op bs = s.raiseFatal .protection op a) ∨
    ((s.params.lowWrite = .fault → firstLow s.i bs.length = none) ∧ s.storeAtI op bs = (s.memWrites s.i bs).advance) := by
  unfold State.storeAtI
  cases hp : s.params.lowWrite <;> cases hf : firstLow s.i bs.length <;> simp

/-! ## Keys -/

theorem lowestEdge_some {keys prev : Keys} {k : Nat} :
    lowestEdge keys prev = some k ↔ LowestKeyEdge keys prev k := by
  have hcond : ∀ j, KeyEdge keys prev j ↔ j < 16 ∧ (keys.getLsbD j && !prev.getLsbD j) = true := by
    intro j; simp [KeyEdge]
  unfold lowestEdge LowestKeyEdge
  rw [List.find?_range_eq_some, hcond]
  simp only [List.mem_range]
  constructor
  · rintro ⟨hp, hlt, hbefore⟩
    exact ⟨⟨hlt, hp⟩, fun j hj hc => by have := hbefore j hj; simp [((hcond j).mp hc).2] at this⟩
  · rintro ⟨⟨hlt, hp⟩, hbefore⟩
    refine ⟨hp, hlt, fun j hj => ?_⟩
    cases hc : (keys.getLsbD j && !prev.getLsbD j)
    · simp
    · exact absurd ((hcond j).mpr ⟨by omega, hc⟩) (hbefore j hj)

theorem lowestEdge_none {keys prev : Keys} : lowestEdge keys prev = none ↔ ∀ k, ¬ KeyEdge keys prev k := by
  unfold lowestEdge
  simp only [List.find?_eq_none, List.mem_range]
  constructor
  · intro h k hk
    have := h k hk.1
    simp [hk.2.1, hk.2.2] at this
  · intro h k hk hc
    refine h k ⟨hk, ?_⟩
    simpa using hc

theorem lowestEdge_lt {keys prev : Keys} {k : Nat} (h : lowestEdge keys prev = some k) : k < 16 :=
  (lowestEdge_some.mp h).1.1

/-- A key test without an edge changes nothing. -/
theorem awaitKey_none {s : State} (x : RegIdx) (h : lowestEdge s.keys s.keysPrev = none) : s.awaitKey x = s := by
  unfold State.awaitKey; rw [h]

/-- A key test with an edge completes the FX0A. -/
theorem awaitKey_some {s : State} {k : Nat} (x : RegIdx) (h : lowestEdge s.keys s.keysPrev = some k) :
    s.awaitKey x = { s.takeKey x k with executor := .running } := by
  unfold State.awaitKey; rw [h]

/-! ## Timers -/

/-- A countdown takes 1 and stops at 0. -/
theorem countDown_toNat (t : Byte) : (countDown t).toNat = t.toNat - 1 := by
  unfold countDown
  split
  · next h => simp [h]
  · next h =>
    have h0 : t.toNat ≠ 0 := fun he => h (BitVec.eq_of_toNat_eq he)
    have := t.isLt
    simp only [BitVec.toNat_sub, show (1 : Byte).toNat = 1 from rfl]
    omega

/-! ## Display -/

theorem cellIndex_lt (x y : Nat) : cellIndex x y < 2048 := by unfold cellIndex; omega

/-- Flipping a cell inverts it and leaves every other cell. -/
theorem dispCell_dispFlip (d : Display) {i j : Nat} (hi : i < 2048) (hj : j < 2048) :
    dispCell (dispFlip d i) j = if j = i then !dispCell d j else dispCell d j := by
  have hbit : ∀ a : Nat, (1#64 <<< a).getLsbD (j % 64) = decide (j % 64 = a) := by
    intro a
    have := Nat.mod_lt j (show 0 < 64 by omega)
    simp only [BitVec.getLsbD_shiftLeft, BitVec.getLsbD_one]
    by_cases he : j % 64 = a
    · subst he; simp [this]
    · by_cases hlt : j % 64 < a
      · simp [hlt, he]
      · simp [he, show j % 64 - a ≠ 0 by omega]
  unfold dispCell dispFlip
  simp only [Vector.getElem_set]
  by_cases hr : i / 64 % 32 = j / 64 % 32
  · simp only [hr, if_true, BitVec.getLsbD_xor, hbit]
    by_cases hc : j % 64 = i % 64
    · have : j = i := by omega
      subst this; simp
    · have : j ≠ i := fun he => hc (by rw [he])
      simp [hc, this]
  · have : j ≠ i := fun he => hr (by rw [he])
    simp [hr, this]

/-- A cleared display has no set cell. -/
@[simp] theorem dispCell_dispClear (i : Nat) : dispCell dispClear i = false := by
  simp [dispCell, dispClear]

/-- Two displays with the same cells are equal. -/
theorem disp_ext {d e : Display} (h : ∀ i, i < 2048 → dispCell d i = dispCell e i) : d = e := by
  apply Vector.ext
  intro r hr
  apply BitVec.eq_of_getLsbD_eq
  intro c hc
  have := h (r * 64 + c) (by omega)
  have h1 : (r * 64 + c) / 64 % 32 = r := by omega
  have h2 : (r * 64 + c) % 64 = c := by omega
  simpa only [dispCell, h1, h2] using this

/-! ## Reads through updates that leave them alone -/

@[simp] theorem readByte_writeV (s : State) (x : RegIdx) (b : Byte) (c : Word) : (s.writeV x b).readByte c = s.readByte c := rfl
@[simp] theorem readV_writeI (s : State) (a : Word) (r : RegIdx) : (s.writeI a).readV r = s.readV r := rfl
@[simp] theorem readByte_writeI (s : State) (a : Word) (c : Word) : (s.writeI a).readByte c = s.readByte c := rfl
@[simp] theorem readV_setPc (s : State) (a : Word) (r : RegIdx) : (s.setPc a).readV r = s.readV r := rfl
@[simp] theorem readByte_setPc (s : State) (a : Word) (c : Word) : (s.setPc a).readByte c = s.readByte c := rfl
@[simp] theorem readV_advance (s : State) (r : RegIdx) : (s.advance).readV r = s.readV r := rfl
@[simp] theorem readByte_advance (s : State) (c : Word) : (s.advance).readByte c = s.readByte c := rfl
@[simp] theorem readV_pokeByte (s : State) (a : Word) (b : Byte) (r : RegIdx) : (s.pokeByte a b).readV r = s.readV r := rfl
@[simp] theorem readV_halt (s : State) (f : FaultRecord) (r : RegIdx) : (s.halt f).readV r = s.readV r := rfl
@[simp] theorem readByte_halt (s : State) (f : FaultRecord) (c : Word) : (s.halt f).readByte c = s.readByte c := rfl
@[simp] theorem readV_raiseDecode (s : State) (op : Word) (r : RegIdx) : (s.raiseDecode op).readV r = s.readV r := rfl
@[simp] theorem readByte_raiseDecode (s : State) (op : Word) (c : Word) : (s.raiseDecode op).readByte c = s.readByte c := rfl
@[simp] theorem readV_writeDisp (s : State) (d : Display) (r : RegIdx) : (s.writeDisp d).readV r = s.readV r := rfl
@[simp] theorem readByte_writeDisp (s : State) (d : Display) (c : Word) : (s.writeDisp d).readByte c = s.readByte c := rfl
@[simp] theorem readV_countDraw (s : State) (r : RegIdx) : (s.countDraw).readV r = s.readV r := rfl
@[simp] theorem readByte_countDraw (s : State) (c : Word) : (s.countDraw).readByte c = s.readByte c := rfl
@[simp] theorem readV_sample (s : State) (k : Keys) (o : Option Byte) (r : RegIdx) : (s.sample k o).readV r = s.readV r := rfl
@[simp] theorem readByte_sample (s : State) (k : Keys) (r : Option Byte) (c : Word) : (s.sample k r).readByte c = s.readByte c := rfl
@[simp] theorem readV_endCycle (s : State) (r : RegIdx) : (s.endCycle).readV r = s.readV r := rfl
@[simp] theorem readByte_endCycle (s : State) (c : Word) : (s.endCycle).readByte c = s.readByte c := rfl
@[simp] theorem readV_stepTaken (s : State) (r : RegIdx) : (s.stepTaken).readV r = s.readV r := rfl
@[simp] theorem readByte_stepTaken (s : State) (c : Word) : (s.stepTaken).readByte c = s.readByte c := rfl

/-- A register write and an advance change only that register and pc. -/
theorem onlyRegs_writeV (s : State) (x : RegIdx) (b : Byte) : s.OnlyRegs (s.writeV x b).advance (· = x) :=
  ⟨fun _ h => readV_writeV_other b h, fun _ => rfl, rfl⟩

/-- A flag instruction changes only its destination, VF and pc. -/
theorem onlyRegs_writeVFlag (s : State) (x : RegIdx) (b f : Byte) :
    s.OnlyRegs (s.writeVFlag x b f).advance (fun r => r = x ∨ r = vf) :=
  ⟨fun _ h => readV_writeVFlag_other b f (fun he => h (.inl he)) (fun he => h (.inr he)), fun _ => rfl, rfl⟩

/-- What a push or a pop that succeeded may have changed. -/
theorem pushReturn_frame {s t : State} (h : s.pushReturn = some t) : t = { s with sp := t.sp, stack := t.stack } := by
  unfold State.pushReturn at h
  split at h
  · simp only [Option.some.injEq] at h; rw [← h]
  · cases h

theorem popReturn_frame {s t : State} (h : s.popReturn = some t) : t = { s with sp := t.sp, pc := t.pc } := by
  unfold State.popReturn at h
  split at h
  · simp only [Option.some.injEq] at h; rw [← h]; rfl
  · cases h

/-- A store at I changes memory and pc, or the fault channel and the executor; nothing else. -/
theorem storeAtI_frame (s : State) (op : Word) (bs : List Byte) :
    s.storeAtI op bs = { s with
      mem := (s.storeAtI op bs).mem, pc := (s.storeAtI op bs).pc
      faults := (s.storeAtI op bs).faults, executor := (s.storeAtI op bs).executor } := by
  unfold State.storeAtI
  split
  · rfl
  · rw [memWrites_eq]; rfl

/-! ## One step -/

/-- Exactly what a step takes: the head of the schedule, or a cycle with the keys as they stand. -/
theorem step_cons {s : State} {h : HostStep} {rest : List HostStep} (hs : s.schedule = h :: rest) :
    step s = hostStep h { s with schedule := rest } := by
  unfold step; rw [hs]

theorem step_nil {s : State} (hs : s.schedule = []) : step s = hostStep (.cycle s.keys none) s := by
  unfold step; rw [hs]

/-- One step of a run that answers a next state, and a run of no steps. -/
theorem core_run_succ {s t : State} (n : Nat) (h : step s = .next t) : Sys2Proof.core.run (n + 1) s = Sys2Proof.core.run n t := by
  have hr := Host.Core.run.eq_2 Sys2Proof.core s n
  rw [show Sys2Proof.core.step s = .next t from h] at hr
  exact hr

@[simp] theorem core_run_zero (s : State) : Sys2Proof.core.run 0 s = .next s := rfl

/-- A run of an instruction's cycle, the skip of an unknown word, a key test or nothing: what a cycle can do. -/
theorem cycle_cases (s : State) (keys : Keys) (rnd : Option Byte) :
    (s.isHalted = true ∧ cycle s keys rnd = .next s) ∨
    (∃ x, s.executor = .awaitingKey x ∧ cycle s keys rnd = .next ((s.sample keys rnd).awaitKey x).endCycle) ∨
    (∃ i rest, s.executor = .running ∧ decode s.fetchBytes = .instr i rest ∧
      cycle s keys rnd = thenState (exec i (s.sample keys rnd)) State.endCycle) ∨
    (∃ w rest, s.executor = .running ∧ decode s.fetchBytes = .unknownWord w rest ∧
      cycle s keys rnd = .next ((s.sample keys rnd).raiseDecode w).endCycle) := by
  have hf : (s.sample keys rnd).fetchBytes = s.fetchBytes := rfl
  unfold cycle
  cases he : s.executor with
  | halted f => exact .inl ⟨by simp [State.isHalted, he], rfl⟩
  | awaitingKey x => exact .inr (.inl ⟨x, rfl, rfl⟩)
  | running =>
    refine .inr (.inr ?_)
    unfold runOne
    rw [hf]
    cases hd : decode s.fetchBytes with
    | instr i rest => exact .inl ⟨i, rest, rfl, rfl, rfl⟩
    | unknownWord w rest => exact .inr ⟨w, rest, rfl, rfl, rfl⟩
    | truncated bs =>
      simp only [State.fetchBytes, decode] at hd
      split at hd <;> cases hd

end Sys2Proof.Machine
end

