-- ==== Sys2Proof/Laws/Display.lean ====
section
/-! SUPPORT. The sprite blit as one list of pixels: since no cell is targeted twice (44_display.md R195), each cell is inverted or
kept, and the collision is that of the cells before the blit. -/

namespace Sys2Proof.Machine

/-- One pixel: the cell and the sprite bit on it. -/
def blitCell (a : Blit) (p : Nat × Bool) : Blit :=
  if p.2 then { disp := dispFlip a.disp p.1, collide := a.collide || dispCell a.disp p.1 } else a

/-- The pixels of a sprite of `n` rows, in the order of the loop. -/
def spritePixels (row : Nat → Byte) (x0 y0 n : Nat) : List (Nat × Bool) :=
  (List.range n).flatMap fun k => (List.range 8).map fun c => (cellIndex (x0 + c) (y0 + k), spriteBit (row k) c)

theorem blitPixel_eq (x y : Nat) (on : Bool) (a : Blit) : blitPixel x y on a = blitCell a (cellIndex x y, on) := by
  unfold blitPixel blitCell; rfl

theorem blitRow_eq (b : Byte) (x0 y : Nat) (a : Blit) :
    blitRow b x0 y a = ((List.range 8).map fun c => (cellIndex (x0 + c) y, spriteBit b c)).foldl blitCell a := by
  unfold blitRow
  simp only [List.foldl_map, blitPixel_eq]

/-- The blit is the fold of its pixels. -/
theorem blitRows_eq (row : Nat → Byte) (x0 y0 n : Nat) (a : Blit) :
    blitRows row x0 y0 n a = (spritePixels row x0 y0 n).foldl blitCell a := by
  unfold blitRows spritePixels
  simp only [List.foldl_flatMap, blitRow_eq]

theorem spritePixels_lt {row : Nat → Byte} {x0 y0 n : Nat} {p : Nat × Bool} (h : p ∈ spritePixels row x0 y0 n) :
    p.1 < 2048 := by
  simp only [spritePixels, List.mem_flatMap, List.mem_map] at h
  obtain ⟨k, _, c, _, rfl⟩ := h
  exact cellIndex_lt _ _

/-- No cell is targeted twice by one sprite (R195). -/
theorem spritePixels_nodup (row : Nat → Byte) (x0 y0 n : Nat) (hn : n ≤ 32) :
    ((spritePixels row x0 y0 n).map Prod.fst).Nodup := by
  unfold spritePixels
  rw [List.map_flatMap, List.nodup_flatMap]
  constructor
  · intro k _
    rw [List.map_map, List.nodup_map_iff_inj_on List.nodup_range]
    intro c hc c' hc' h
    simp only [List.mem_range, Function.comp, cellIndex] at hc hc' h
    omega
  · refine List.Pairwise.imp_of_mem ?_ List.nodup_range
    intro k k' hk hk' hne i hi hi'
    simp only [List.mem_range] at hk hk'
    simp only [List.map_map, List.mem_map, List.mem_range, Function.comp] at hi hi'
    obtain ⟨c, hc, rfl⟩ := hi
    obtain ⟨c', hc', h⟩ := hi'
    simp only [cellIndex] at h
    omega

/-- Folding pixels on distinct cells: a cell is inverted exactly when a set bit is on it, and the collision is whether such a cell
was set before. -/
theorem foldl_blitCell (ps : List (Nat × Bool)) (a : Blit) (hb : ∀ p ∈ ps, p.1 < 2048) (hn : (ps.map Prod.fst).Nodup) :
    (∀ i, i < 2048 → dispCell (ps.foldl blitCell a).disp i = (dispCell a.disp i != decide ((i, true) ∈ ps))) ∧
    ((ps.foldl blitCell a).collide = true ↔ a.collide = true ∨ ∃ i, (i, true) ∈ ps ∧ dispCell a.disp i = true) := by
  induction ps generalizing a with
  | nil => simp
  | cons p ps ih =>
    obtain ⟨j, on⟩ := p
    simp only [List.map_cons, List.nodup_cons] at hn
    have hj : j < 2048 := hb (j, on) (by simp)
    have hnot : ∀ b, (j, b) ∉ ps := fun b hh => hn.1 (List.mem_map.mpr ⟨(j, b), hh, rfl⟩)
    obtain ⟨h1, h2⟩ := ih (blitCell a (j, on)) (fun p hp => hb p (by simp [hp])) hn.2
    constructor
    · intro i hi
      rw [List.foldl_cons, h1 i hi]
      cases on
      · simp [blitCell]
      · simp only [blitCell, if_true, dispCell_dispFlip _ hj hi]
        by_cases he : i = j
        · subst he; simp [hnot]
        · simp [he]
    · rw [List.foldl_cons, h2]
      cases on
      · simp [blitCell]
      · simp only [blitCell, if_true, Bool.or_eq_true]
        constructor
        · rintro ((h | h) | ⟨i, hi, hd⟩)
          · exact .inl h
          · exact .inr ⟨j, by simp, h⟩
          · have hne : i ≠ j := fun he => hnot true (he ▸ hi)
            rw [dispCell_dispFlip _ hj (hb (i, true) (by simp [hi])), if_neg hne] at hd
            exact .inr ⟨i, by simp [hi], hd⟩
        · rintro (h | ⟨i, hi, hd⟩)
          · exact .inl (.inl h)
          · simp only [List.mem_cons, Prod.mk.injEq, and_true] at hi
            rcases hi with rfl | hi
            · exact .inl (.inr hd)
            · have hne : i ≠ j := fun he => hnot true (he ▸ hi)
              refine .inr ⟨i, hi, ?_⟩
              rw [dispCell_dispFlip _ hj (hb (i, true) (by simp [hi])), if_neg hne]; exact hd

/-- The pixels that are set are the cells the sprite covers. -/
theorem mem_spritePixels (s : State) (x y : RegIdx) (n i : Nat) :
    (i, true) ∈ spritePixels s.spriteRow ((s.readV x).toNat % 64) ((s.readV y).toNat % 32) n ↔ s.SpriteCovers x y n i := by
  unfold spritePixels State.SpriteCovers
  simp only [List.mem_flatMap, List.mem_map, List.mem_range, Prod.mk.injEq, cellIndex, spriteBit, State.spriteRow]
  constructor
  · rintro ⟨k, hk, c, hc, he, hb⟩
    exact ⟨k, c, hk, hc, hb, by omega⟩
  · rintro ⟨k, c, hk, hc, hb, he⟩
    exact ⟨k, hk, c, hc, by omega, hb⟩

end Sys2Proof.Machine
end

