-- ==== Sys2Proof/Laws/PerInstr.lean ====
section
/-! SUPPORT. Per instruction: its encoding is a word of the opcode table, with every operand at every value. -/

namespace Sys2Proof.Laws.TableRow

/-- The encoder's word for the instruction matches a row of the opcode table. -/
def Statement (i : Instr) : Prop := wellFormedWord (encode i) = true

theorem of_row {w : Word} (r : OpcodeRow) (hm : r ∈ opcodeTable) (hf : w &&& r.mask = r.val) : wellFormedWord w = true :=
  List.any_eq_true.mpr ⟨r, hm, by simpa [OpcodeRow.fits] using hf⟩

theorem formatA_op (op : BitVec 4) (nnn : Addr12) : formatA op nnn &&& 0xF000 = formatA op 0 := by
  apply BitVec.eq_of_getLsbD_eq
  intro j hj
  simp only [formatA, BitVec.getLsbD_and, BitVec.getLsbD_append]
  interval_cases j <;> simp

theorem formatXK_op (op : BitVec 4) (x : RegIdx) (kk : Byte) : formatXK op x kk &&& 0xF000 = formatXK op 0 0 := by
  apply BitVec.eq_of_getLsbD_eq
  intro j hj
  simp only [formatXK, regField, BitVec.getLsbD_and, BitVec.getLsbD_append]
  interval_cases j <;> simp

theorem formatXK_opNN (op : BitVec 4) (x : RegIdx) (kk : Byte) : formatXK op x kk &&& 0xF0FF = formatXK op 0 kk := by
  apply BitVec.eq_of_getLsbD_eq
  intro j hj
  simp only [formatXK, regField, BitVec.getLsbD_and, BitVec.getLsbD_append]
  interval_cases j <;> simp

theorem formatXY_op (op : BitVec 4) (x y : RegIdx) (n : Fin 16) : formatXY op x y n &&& 0xF000 = formatXY op 0 0 0 := by
  apply BitVec.eq_of_getLsbD_eq
  intro j hj
  simp only [formatXY, regField, BitVec.getLsbD_and, BitVec.getLsbD_append]
  interval_cases j <;> simp

theorem formatXY_opN (op : BitVec 4) (x y : RegIdx) (n : Fin 16) : formatXY op x y n &&& 0xF00F = formatXY op 0 0 n := by
  apply BitVec.eq_of_getLsbD_eq
  intro j hj
  simp only [formatXY, regField, BitVec.getLsbD_and, BitVec.getLsbD_append]
  interval_cases j <;> simp

theorem cls : Statement (.cls) :=
  (by decide : wellFormedWord _ = true)

theorem ret : Statement (.ret) :=
  (by decide : wellFormedWord _ = true)

theorem jp (nnn : Addr12) : Statement (.jp nnn) :=
  of_row ⟨0xF000, 0x1000⟩ (by decide) ((formatA_op 0x1 nnn).trans (by decide))

theorem call (nnn : Addr12) : Statement (.call nnn) :=
  of_row ⟨0xF000, 0x2000⟩ (by decide) ((formatA_op 0x2 nnn).trans (by decide))

theorem seImm (x : RegIdx) (kk : Byte) : Statement (.seImm x kk) :=
  of_row ⟨0xF000, 0x3000⟩ (by decide) ((formatXK_op 0x3 x kk).trans (by decide))

theorem sneImm (x : RegIdx) (kk : Byte) : Statement (.sneImm x kk) :=
  of_row ⟨0xF000, 0x4000⟩ (by decide) ((formatXK_op 0x4 x kk).trans (by decide))

theorem seReg (x y : RegIdx) : Statement (.seReg x y) :=
  of_row ⟨0xF00F, 0x5000⟩ (by decide) ((formatXY_opN 0x5 x y 0x0).trans (by decide))

theorem ldImm (x : RegIdx) (kk : Byte) : Statement (.ldImm x kk) :=
  of_row ⟨0xF000, 0x6000⟩ (by decide) ((formatXK_op 0x6 x kk).trans (by decide))

theorem addImm (x : RegIdx) (kk : Byte) : Statement (.addImm x kk) :=
  of_row ⟨0xF000, 0x7000⟩ (by decide) ((formatXK_op 0x7 x kk).trans (by decide))

theorem ldReg (x y : RegIdx) : Statement (.ldReg x y) :=
  of_row ⟨0xF00F, 0x8000⟩ (by decide) ((formatXY_opN 0x8 x y 0x0).trans (by decide))

theorem orReg (x y : RegIdx) : Statement (.orReg x y) :=
  of_row ⟨0xF00F, 0x8001⟩ (by decide) ((formatXY_opN 0x8 x y 0x1).trans (by decide))

theorem andReg (x y : RegIdx) : Statement (.andReg x y) :=
  of_row ⟨0xF00F, 0x8002⟩ (by decide) ((formatXY_opN 0x8 x y 0x2).trans (by decide))

theorem xorReg (x y : RegIdx) : Statement (.xorReg x y) :=
  of_row ⟨0xF00F, 0x8003⟩ (by decide) ((formatXY_opN 0x8 x y 0x3).trans (by decide))

theorem addReg (x y : RegIdx) : Statement (.addReg x y) :=
  of_row ⟨0xF00F, 0x8004⟩ (by decide) ((formatXY_opN 0x8 x y 0x4).trans (by decide))

theorem subReg (x y : RegIdx) : Statement (.subReg x y) :=
  of_row ⟨0xF00F, 0x8005⟩ (by decide) ((formatXY_opN 0x8 x y 0x5).trans (by decide))

theorem shrReg (x y : RegIdx) : Statement (.shrReg x y) :=
  of_row ⟨0xF00F, 0x8006⟩ (by decide) ((formatXY_opN 0x8 x y 0x6).trans (by decide))

theorem subnReg (x y : RegIdx) : Statement (.subnReg x y) :=
  of_row ⟨0xF00F, 0x8007⟩ (by decide) ((formatXY_opN 0x8 x y 0x7).trans (by decide))

theorem shlReg (x y : RegIdx) : Statement (.shlReg x y) :=
  of_row ⟨0xF00F, 0x800E⟩ (by decide) ((formatXY_opN 0x8 x y 0xE).trans (by decide))

theorem sneReg (x y : RegIdx) : Statement (.sneReg x y) :=
  of_row ⟨0xF00F, 0x9000⟩ (by decide) ((formatXY_opN 0x9 x y 0x0).trans (by decide))

theorem ldI (nnn : Addr12) : Statement (.ldI nnn) :=
  of_row ⟨0xF000, 0xA000⟩ (by decide) ((formatA_op 0xA nnn).trans (by decide))

theorem jpV0 (nnn : Addr12) : Statement (.jpV0 nnn) :=
  of_row ⟨0xF000, 0xB000⟩ (by decide) ((formatA_op 0xB nnn).trans (by decide))

theorem rnd (x : RegIdx) (kk : Byte) : Statement (.rnd x kk) :=
  of_row ⟨0xF000, 0xC000⟩ (by decide) ((formatXK_op 0xC x kk).trans (by decide))

theorem drw (x y : RegIdx) (n : Fin 16) : Statement (.drw x y n) :=
  of_row ⟨0xF000, 0xD000⟩ (by decide) ((formatXY_op 0xD x y n).trans (by decide))

theorem skp (x : RegIdx) : Statement (.skp x) :=
  of_row ⟨0xF0FF, 0xE09E⟩ (by decide) ((formatXK_opNN 0xE x 0x9E).trans (by decide))

theorem sknp (x : RegIdx) : Statement (.sknp x) :=
  of_row ⟨0xF0FF, 0xE0A1⟩ (by decide) ((formatXK_opNN 0xE x 0xA1).trans (by decide))

theorem ldVxDt (x : RegIdx) : Statement (.ldVxDt x) :=
  of_row ⟨0xF0FF, 0xF007⟩ (by decide) ((formatXK_opNN 0xF x 0x07).trans (by decide))

theorem ldVxK (x : RegIdx) : Statement (.ldVxK x) :=
  of_row ⟨0xF0FF, 0xF00A⟩ (by decide) ((formatXK_opNN 0xF x 0x0A).trans (by decide))

theorem ldDtVx (x : RegIdx) : Statement (.ldDtVx x) :=
  of_row ⟨0xF0FF, 0xF015⟩ (by decide) ((formatXK_opNN 0xF x 0x15).trans (by decide))

theorem ldStVx (x : RegIdx) : Statement (.ldStVx x) :=
  of_row ⟨0xF0FF, 0xF018⟩ (by decide) ((formatXK_opNN 0xF x 0x18).trans (by decide))

theorem addI (x : RegIdx) : Statement (.addI x) :=
  of_row ⟨0xF0FF, 0xF01E⟩ (by decide) ((formatXK_opNN 0xF x 0x1E).trans (by decide))

theorem ldF (x : RegIdx) : Statement (.ldF x) :=
  of_row ⟨0xF0FF, 0xF029⟩ (by decide) ((formatXK_opNN 0xF x 0x29).trans (by decide))

theorem ldB (x : RegIdx) : Statement (.ldB x) :=
  of_row ⟨0xF0FF, 0xF033⟩ (by decide) ((formatXK_opNN 0xF x 0x33).trans (by decide))

theorem storeRegs (x : RegIdx) : Statement (.storeRegs x) :=
  of_row ⟨0xF0FF, 0xF055⟩ (by decide) ((formatXK_opNN 0xF x 0x55).trans (by decide))

theorem loadRegs (x : RegIdx) : Statement (.loadRegs x) :=
  of_row ⟨0xF0FF, 0xF065⟩ (by decide) ((formatXK_opNN 0xF x 0x65).trans (by decide))

end Sys2Proof.Laws.TableRow
end

