-- ==== Sys2Proof/Machine/Run.lean ====
section
/-! DEFINITION. Infinite runs of the core under a host, and fairness (45_keys_timers.md R225, R226). One step shows neither: a run
is a sequence of states beside the state, and the schedule of a state holds the request that the next step of the run takes. -/

namespace Sys2Proof.Machine

/-- The host's next request is `h`: it is what the next step takes (40_cycle.md R100). -/
def State.request (s : State) (h : HostStep) : State := { s with schedule := [h] }

/-- `run` is an infinite run under the host's requests `req`: step n takes request n in state n and answers state n + 1. The
requests are any sequence: no number of cycles is fixed between two ticks (R225). -/
def InfiniteRun (req : Nat → HostStep) (run : Nat → State) : Prop :=
  ∀ n, step ((run n).request (req n)) = .next (run (n + 1))

/-- Infinitely many steps have the property. -/
def InfinitelyOften (p : Nat → Prop) : Prop := ∀ n, ∃ m, n ≤ m ∧ p m

/-- The core is never halted in the run. -/
def NeverHalted (run : Nat → State) : Prop := ∀ n, (run n).isHalted = false

/-- The request is an executor cycle. -/
def HostStep.IsCycle (h : HostStep) : Prop := ∃ keys rnd, h = .cycle keys rnd

/-- Fairness, the only form the 60 Hz contract takes: in an infinite run of a core that is not halted, infinitely many ticks and
infinitely many cycles occur (R226; the spec's decision D15, log 19). -/
def FairRun (req : Nat → HostStep) (run : Nat → State) : Prop :=
  InfiniteRun req run ∧
    (NeverHalted run → InfinitelyOften (fun n => req n = .tick) ∧ InfinitelyOften (fun n => (req n).IsCycle))

end Sys2Proof.Machine
end

