-- ==== Sys2Proof/Laws/Run.lean ====
section
/-! SUPPORT. What fairness gives: in a fair run of a core that is not halted a timer that is not raised reaches 0 and stays there
(45_keys_timers.md R226: "it lets a claim conclude that a delay loop ends"), and every wait sees another cycle (R289). -/

namespace Sys2Proof.Machine

/-- A requested step takes that request. -/
theorem step_request (s : State) (h : HostStep) : step (s.request h) = hostStep h { s with schedule := [] } := rfl

/-- A tick of a core that is not halted counts both timers down. -/
theorem InfiniteRun.tick {req : Nat → HostStep} {run : Nat → State} (hr : InfiniteRun req run) {n : Nat}
    (ht : req n = .tick) (hh : (run n).isHalted = false) :
    (run (n + 1)).dt = countDown (run n).dt ∧ (run (n + 1)).st = countDown (run n).st := by
  have hs := hr n
  have hh' : (State.stepTaken { run n with schedule := [] }).isHalted = false := hh
  rw [ht, step_request] at hs
  simp only [hostStep, State.tick, hh'] at hs
  injection hs with hs
  rw [← hs]; exact ⟨rfl, rfl⟩

/-- A quantity that never rises and falls at infinitely many steps while it is not 0 reaches 0. -/
theorem reaches_zero {f : Nat → Nat} {p : Nat → Prop} (hp : InfinitelyOften p) (hmono : ∀ n, f (n + 1) ≤ f n)
    (hfall : ∀ n, p n → f (n + 1) ≤ f n - 1) : ∃ n, ∀ m, n ≤ m → f m = 0 := by
  have hle : ∀ n k, f (n + k) ≤ f n := fun n k => by
    induction k with
    | zero => exact Nat.le_refl _
    | succ k ih => exact Nat.le_trans (hmono (n + k)) ih
  have key : ∀ b n, f n ≤ b → ∃ m, f m = 0 := fun b => by
    induction b with
    | zero => exact fun n h => ⟨n, by omega⟩
    | succ b ih =>
      intro n h
      obtain ⟨m, hnm, hm⟩ := hp n
      have h1 := hle n (m - n)
      rw [Nat.add_sub_cancel' hnm] at h1
      exact ih (m + 1) (by have := hfall m hm; omega)
  obtain ⟨n, hn⟩ := key _ 0 (Nat.le_refl _)
  refine ⟨n, fun m hm => ?_⟩
  have := hle n (m - n)
  rw [Nat.add_sub_cancel' hm] at this
  omega

/-- In a fair run of a core that is not halted, a delay timer that no instruction raises reaches 0 and stays there. -/
theorem FairRun.delay_reaches_zero {req : Nat → HostStep} {run : Nat → State} (hf : FairRun req run) (hh : NeverHalted run)
    (hdt : ∀ n, (run (n + 1)).dt.toNat ≤ (run n).dt.toNat) : ∃ n, ∀ m, n ≤ m → (run m).dt = 0 := by
  obtain ⟨n, hn⟩ := reaches_zero (f := fun n => (run n).dt.toNat) (hf.2 hh).1 hdt fun n ht => by
    rw [(hf.1.tick ht (hh n)).1, countDown_toNat]
  exact ⟨n, fun m hm => BitVec.eq_of_toNat_eq (hn m hm)⟩

/-- The same of the sound timer: the buzzer ends. -/
theorem FairRun.buzzer_ends {req : Nat → HostStep} {run : Nat → State} (hf : FairRun req run) (hh : NeverHalted run)
    (hst : ∀ n, (run (n + 1)).st.toNat ≤ (run n).st.toNat) : ∃ n, ∀ m, n ≤ m → (run m).buzzer = false := by
  obtain ⟨n, hn⟩ := reaches_zero (f := fun n => (run n).st.toNat) (hf.2 hh).1 hst fun n ht => by
    rw [(hf.1.tick ht (hh n)).2, countDown_toNat]
  refine ⟨n, fun m hm => ?_⟩
  have h0 : (run m).st = 0 := BitVec.eq_of_toNat_eq (hn m hm)
  simp [State.buzzer, h0]

/-- A wait for a key is tested again: another cycle always comes. -/
theorem FairRun.cycle_again {req : Nat → HostStep} {run : Nat → State} (hf : FairRun req run) (hh : NeverHalted run) (n : Nat) :
    ∃ m keys rnd, n ≤ m ∧ req m = .cycle keys rnd := by
  obtain ⟨m, hm, keys, rnd, h⟩ := (hf.2 hh).2 n
  exact ⟨m, keys, rnd, hm, h⟩

end Sys2Proof.Machine
end

