-- ==== Sys2Proof/Tests/Slice0.lean ====
section
/-! SUPPORT. Tests: words written out bit by bit from 30_encoding.md R82 and the opcode table, the checks' refusals, the vectors of
95_test_vectors.md (S<n> of its Part 1, §2.<n> of its Part 2), and for each statement with hypotheses a state that meets them. -/

namespace Sys2Proof.Tests

open Sys2Proof Sys2Proof.Machine

/-! ## WellFormed refuses -/

/-- §2.1: every row of the table of unknown words. -/
theorem test_wellFormedWord_refuses :
    wellFormedWord 0x0000 = false ∧ wellFormedWord 0x01E0 = false ∧ wellFormedWord 0x00E1 = false ∧
    wellFormedWord 0x0123 = false ∧ wellFormedWord 0x5121 = false ∧ wellFormedWord 0x8008 = false ∧
    wellFormedWord 0x800F = false ∧ wellFormedWord 0x9121 = false ∧ wellFormedWord 0xE09F = false ∧
    wellFormedWord 0xE0A2 = false ∧ wellFormedWord 0xF000 = false ∧ wellFormedWord 0xF0FF = false := by decide

/-- R274: an empty and an oversized image; S11a, S11b: the largest legal one. -/
theorem test_wellFormedLength_refuses :
    wellFormedLength 0 = false ∧ wellFormedLength 3585 = false ∧ wellFormedLength 3584 = true := by decide

/-- No word fits two rows of the opcode table: two rows differ on a bit that both fix (R87). -/
theorem test_opcodeTable_disjoint :
    opcodeTable.Pairwise (fun a b => a.val &&& b.mask ≠ b.val &&& a.mask) ∧ opcodeTable.length = 34 := by decide

/-! ## Decoding, word by word (R82) -/

theorem test_decode_formatO :
    decodeWord 0b0000000011100000 = some .cls ∧ decodeWord 0b0000000011101110 = some .ret := by decide

theorem test_decode_formatA :
    decodeWord 0b0001001000110100 = some (.jp 0x234) ∧ decodeWord 0b0010001000010000 = some (.call 0x210) ∧
    decodeWord 0b1010001011110000 = some (.ldI 0x2F0) ∧ decodeWord 0b1011111111111111 = some (.jpV0 0xFFF) := by decide

theorem test_decode_formatXK :
    decodeWord 0b0011001100010000 = some (.seImm 3 0x10) ∧ decodeWord 0b0100001100010000 = some (.sneImm 3 0x10) ∧
    decodeWord 0b0110101001000010 = some (.ldImm 10 0x42) ∧ decodeWord 0b0111000111111111 = some (.addImm 1 0xFF) ∧
    decodeWord 0b1100001100001111 = some (.rnd 3 0x0F) := by decide

theorem test_decode_formatXY :
    decodeWord 0b0101000100100000 = some (.seReg 1 2) ∧ decodeWord 0b1001000100100000 = some (.sneReg 1 2) ∧
    decodeWord 0b1000000100100000 = some (.ldReg 1 2) ∧ decodeWord 0b1000000100100001 = some (.orReg 1 2) ∧
    decodeWord 0b1000000100100010 = some (.andReg 1 2) ∧ decodeWord 0b1000000100100011 = some (.xorReg 1 2) ∧
    decodeWord 0b1000000100100100 = some (.addReg 1 2) ∧ decodeWord 0b1000000100100101 = some (.subReg 1 2) ∧
    decodeWord 0b1000000100100110 = some (.shrReg 1 2) ∧ decodeWord 0b1000000100100111 = some (.subnReg 1 2) ∧
    decodeWord 0b1000000100101110 = some (.shlReg 1 2) := by decide

theorem test_decode_formatXYN : decodeWord 0b1101000000010010 = some (.drw 0 1 2) := by decide

theorem test_decode_formatX :
    decodeWord 0b1110010110011110 = some (.skp 5) ∧ decodeWord 0b1110010110100001 = some (.sknp 5) ∧
    decodeWord 0b1111001100000111 = some (.ldVxDt 3) ∧ decodeWord 0b1111010000001010 = some (.ldVxK 4) ∧
    decodeWord 0b1111000000010101 = some (.ldDtVx 0) ∧ decodeWord 0b1111000000011000 = some (.ldStVx 0) ∧
    decodeWord 0b1111001000011110 = some (.addI 2) ∧ decodeWord 0b1111000000101001 = some (.ldF 0) ∧
    decodeWord 0b1111000000110011 = some (.ldB 0) ∧ decodeWord 0b1111000101010101 = some (.storeRegs 1) ∧
    decodeWord 0b1111000101100101 = some (.loadRegs 1) := by decide

/-- The same words from the encoder, one of each format. -/
theorem test_encode_formats :
    encode .ret = 0x00EE ∧ encode (.call 0x210) = 0x2210 ∧ encode (.rnd 3 0x0F) = 0xC30F ∧
    encode (.shrReg 15 2) = 0x8F26 ∧ encode (.drw 0 1 2) = 0xD012 ∧ encode (.ldVxK 4) = 0xF40A := by decide

/-- R65, R80: high byte first; one byte is no opcode. -/
theorem test_decode_bytes :
    decode [0x12, 0x34, 0x56] = .instr (.jp 0x234) [0x56] ∧ decode [0x51, 0x21] = .unknownWord 0x5121 [] ∧
    decode [0x12] = .truncated [0x12] := by decide

/-! ## One step on a small state: the vectors of 95_test_vectors.md, with the instruction at 0x300 -/

/-- The reset state with the word at 0x300 as the next to run. -/
def at300 (w : Nat) : State := ({ State.reset with pc := 0x300 } : State).withFetchWord 16 w

/-- What one step answers, seen through `f`. -/
def see {α : Type} (s : State) (f : State → α) : Option α :=
  match step s with
  | .next t => some (f t)
  | .fault _ => none
  | .refused _ => none

/-- V registers set before the step. -/
def State.withV (s : State) (l : List (RegIdx × Byte)) : State := l.foldl (fun t p => t.writeV p.1 p.2) s

theorem test_unknown_word : see (at300 0x5121) (fun t => (t.pc, t.faults, t.executor)) =
    some (0x302, [{ code := .decode, pc := 0x300, opcode := 0x5121, info := 0 }], .running) := by decide

theorem test_jp : see (at300 0x1234) (fun t => t.pc) = some 0x234 := by decide

theorem test_call : see ({ State.reset with pc := 0xFFE }.withFetchWord 16 0x2400)
    (fun t => (t.pc, t.sp, t.stack[0])) = some (0x400, 1, 0x000) := by decide

theorem test_call_overflow : see { at300 0x2400 with sp := 16 } (fun t => (t.pc, t.sp, t.faults)) =
    some (0x300, 16, [{ code := .stackOverflow, pc := 0x300, opcode := 0x2400, info := 16 }]) := by decide

theorem test_ret : see { at300 0x00EE with sp := 2, stack := (Vector.replicate 16 0).set 1 0x40A }
    (fun t => (t.pc, t.sp, t.stack[1])) = some (0x40A, 1, 0x40A) := by decide

theorem test_ret_underflow : see (at300 0x00EE) (fun t => (t.pc, t.executor)) =
    some (0x300, .halted { code := .stackUnderflow, pc := 0x300, opcode := 0x00EE, info := 0 }) := by decide

theorem test_seImm : see (State.withV (at300 0x3310) [(3, 0x10)]) (fun t => t.pc) = some 0x304 ∧
    see (State.withV (at300 0x3310) [(3, 0x11)]) (fun t => t.pc) = some 0x302 := by decide

theorem test_sneImm : see (State.withV (at300 0x4310) [(3, 0x10)]) (fun t => t.pc) = some 0x302 ∧
    see (at300 0x4310) (fun t => t.pc) = some 0x304 := by decide

theorem test_seReg : see (State.withV (at300 0x5120) [(1, 0x7F), (2, 0x7F)]) (fun t => t.pc) = some 0x304 ∧
    see (State.withV (at300 0x5120) [(1, 0x01), (2, 0x02)]) (fun t => t.pc) = some 0x302 := by decide

theorem test_sneReg : see (State.withV (at300 0x9120) [(1, 0x01), (2, 0x02)]) (fun t => t.pc) = some 0x304 ∧
    see (State.withV (at300 0x9110) [(1, 0x01)]) (fun t => t.pc) = some 0x302 := by decide

theorem test_jpV0 : see (State.withV (at300 0xBFFF) [(0, 0xFF)]) (fun t => t.pc) = some 0x0FE ∧
    see (State.withV (at300 0xB500) [(0, 0x10), (5, 0x99)]) (fun t => t.pc) = some 0x510 := by decide

theorem test_ldImm : see (at300 0x6A42) (fun t => (t.pc, t.readV 10)) = some (0x302, 0x42) := by decide

theorem test_addImm : see (State.withV (at300 0x7102) [(1, 0xFF)]) (fun t => (t.readV 1, t.readV 15)) = some (0x01, 0x00) ∧
    see (State.withV (at300 0x7F03) [(15, 0xFE)]) (fun t => t.readV 15) = some 0x01 := by decide

theorem test_ldReg : see (State.withV (at300 0x8120) [(2, 0x33)]) (fun t => t.readV 1) = some 0x33 := by decide

theorem test_orReg : see (State.withV (at300 0x8121) [(1, 0xF0), (2, 0x0F), (15, 0x77)]) (fun t => (t.readV 1, t.readV 15)) =
    some (0xFF, 0x77) := by decide

theorem test_andReg : see (State.withV (at300 0x8122) [(1, 0xF0), (2, 0x3C)]) (fun t => t.readV 1) = some 0x30 := by decide

theorem test_xorReg : see (State.withV (at300 0x8123) [(1, 0xFF), (2, 0x0F)]) (fun t => t.readV 1) = some 0xF0 := by decide

theorem test_addReg : see (State.withV (at300 0x8124) [(1, 0xFF), (2, 0x01)]) (fun t => (t.readV 1, t.readV 15)) = some (0x00, 1) ∧
    see (State.withV (at300 0x8F14) [(15, 0x80), (1, 0x90)]) (fun t => t.readV 15) = some 0x01 := by decide

theorem test_subReg : see (State.withV (at300 0x8125) [(1, 0x01), (2, 0x02)]) (fun t => (t.readV 1, t.readV 15)) = some (0xFF, 0) ∧
    see (State.withV (at300 0x81F5) [(1, 0x03), (15, 0x05)]) (fun t => (t.readV 1, t.readV 15)) = some (0xFE, 0) := by decide

theorem test_subReg_equal : see (State.withV (at300 0x8125) [(1, 0x07), (2, 0x07)]) (fun t => (t.readV 1, t.readV 15)) =
    some (0x00, 1) := by decide

theorem test_shrReg : see (State.withV (at300 0x8126) [(1, 0x80), (2, 0x01)]) (fun t => (t.readV 1, t.readV 2, t.readV 15)) =
    some (0x40, 0x01, 0) ∧ see (State.withV (at300 0x8F06) [(15, 0x03)]) (fun t => t.readV 15) = some 0x01 := by decide

theorem test_subnReg : see (State.withV (at300 0x8127) [(1, 0x02), (2, 0x01)]) (fun t => (t.readV 1, t.readV 15)) = some (0xFF, 0) ∧
    see (State.withV (at300 0x8F27) [(15, 0x01), (2, 0x02)]) (fun t => t.readV 15) = some 0x01 := by decide

theorem test_shlReg : see (State.withV (at300 0x810E) [(1, 0x81)]) (fun t => (t.readV 1, t.readV 15)) = some (0x02, 1) ∧
    see (State.withV (at300 0x8FFE) [(15, 0x80)]) (fun t => t.readV 15) = some 0x01 := by decide

/-- §2.3 with the draw supplied by the host. -/
theorem test_rnd : see { at300 0xC30F with schedule := [.cycle 0 (some 0xA7)] } (fun t => (t.readV 3, t.draws)) = some (0x07, 1) ∧
    see { at300 0xC3F0 with schedule := [.cycle 0 (some 0xAB)] } (fun t => t.readV 3) = some 0xA0 := by decide

theorem test_ldI : see (at300 0xA2F0) (fun t => (t.i, t.pc)) = some (0x2F0, 0x302) := by decide

theorem test_addI : see (State.withV { at300 0xF11E with i := 0xFFF } [(1, 0x01), (15, 0x55)]) (fun t => (t.i, t.readV 15)) =
    some (0x000, 0x55) := by decide

theorem test_ldF : see (State.withV (at300 0xF029) [(0, 0x0A)]) (fun t => t.i) = some 0x082 ∧
    see (State.withV (at300 0xF029) [(0, 0xFF)]) (fun t => t.i) = some 0x54B := by decide

theorem test_ldB : see (State.withV { at300 0xF033 with i := 0x400 } [(0, 157)])
    (fun t => (t.readByte 0x400, t.readByte 0x401, t.readByte 0x402, t.i)) = some (1, 5, 7, 0x400) := by decide

theorem test_ldB_protection : see (State.withV { at300 0xF033 with i := 0xFFE } [(0, 255)])
    (fun t => (t.faults, t.readByte 0xFFE, t.pc)) =
    some ([{ code := .protection, pc := 0x300, opcode := 0xF033, info := 0x000 }], 0, 0x300) := by decide

theorem test_storeRegs_discard : see (State.withV { at300 0xF355 with
      i := 0xFFE, params := { Params.default with lowWrite := .discard } } [(0, 1), (1, 2), (2, 3), (3, 4)])
    (fun t => (t.readByte 0xFFE, t.readByte 0xFFF, t.readByte 0x000, t.pc)) = some (1, 2, 0, 0x302) := by decide

theorem test_storeRegs_store : see (State.withV { at300 0xF355 with
      i := 0xFFE, params := { Params.default with lowWrite := .store } } [(0, 1), (1, 2), (2, 3), (3, 4)])
    (fun t => (t.readByte 0xFFE, t.readByte 0xFFF, t.readByte 0x000, t.readByte 0x001)) = some (1, 2, 3, 4) := by decide

theorem test_loadRegs : see { at300 0xF465 with i := 0x050 }
    (fun t => (t.readV 0, t.readV 1, t.readV 2, t.readV 3, t.readV 4, t.readV 5)) =
    some (0xF0, 0x90, 0x90, 0x90, 0xF0, 0) := by decide

theorem test_loadRegs_wraps : see (({ at300 0xF165 with i := 0xFFF }.pokeByte 0xFFF 0xAA).pokeByte 0x000 0xBB)
    (fun t => (t.readV 0, t.readV 1)) = some (0xAA, 0xBB) := by decide

theorem test_cls : see { at300 0x00E0 with disp := dispFlip (dispFlip dispClear 0) 100 }
    (fun t => (dispCell t.disp 0, dispCell t.disp 100, t.dirty)) = some (false, false, true) := by decide

/-- §2.5: x = 100, y = 40 wrap to 36 and 8; bit 0 is column offset 7: cell 555. -/
theorem test_drw_wraps : see (State.withV ({ at300 0xD011 with i := 0x400 }.pokeByte 0x400 0x01) [(0, 100), (1, 40)])
    (fun t => (dispCell t.disp 555, dispCell t.disp 548, t.readV 15, t.dirty)) = some (true, false, 0, true) := by decide

/-- §2.5: X = F draws at VF's old value 62; cell 383 was set: collision. -/
theorem test_drw_vf : see (State.withV ({ at300 0xDF11 with i := 0x400, disp := dispFlip dispClear 383 }.pokeByte 0x400 0xC0)
    [(1, 5), (15, 62)]) (fun t => (dispCell t.disp 382, dispCell t.disp 383, t.readV 15)) = some (true, false, 1) := by decide

theorem test_skp : see (State.withV { at300 0xE59E with keys := 0x0080 } [(5, 0x7)]) (fun t => t.pc) = some 0x304 ∧
    see (State.withV (at300 0xE59E) [(5, 0x10)]) (fun t => (t.pc, t.faults)) =
      some (0x300, [{ code := .keyRange, pc := 0x300, opcode := 0xE59E, info := 0x10 }]) := by decide

theorem test_sknp : see (State.withV (at300 0xE5A1) [(5, 0x7)]) (fun t => t.pc) = some 0x304 ∧
    see (State.withV { at300 0xE5A1 with params := { Params.default with keyIndex := .notPressed } } [(5, 0x17)])
      (fun t => t.pc) = some 0x304 := by decide

theorem test_ldVxDt : see { at300 0xF307 with dt := 0x3C } (fun t => t.readV 3) = some 0x3C := by decide

theorem test_ldVxK : see { at300 0xF30A with keys := 0x0210 } (fun t => (t.readV 3, t.pc, t.executor, t.keysPrev)) =
    some (0x04, 0x302, .running, 0x0210) := by decide

theorem test_ldVxK_held : see { at300 0xF30A with keys := 0x0008, keysPrev := 0x0008 } (fun t => (t.pc, t.executor)) =
    some (0x300, .awaitingKey 3) := by decide

theorem test_awaiting : see { at300 0 with executor := .awaitingKey 3, schedule := [.cycle 0x0040 none] }
    (fun t => (t.readV 3, t.pc, t.executor, t.keysPrev)) = some (0x06, 0x302, .running, 0x0040) := by decide

theorem test_timers_written : see (State.withV (at300 0xF015) [(0, 0x05)]) (fun t => t.dt) = some 0x05 ∧
    see (State.withV (at300 0xF018) [(0, 0x1E)]) (fun t => (t.st, t.buzzer)) = some (0x1E, true) := by decide

theorem test_tick : see { at300 0 with dt := 3, st := 1, schedule := [.tick] } (fun t => (t.dt, t.st, t.buzzer, t.pc)) =
    some (2, 0, false, 0x300) ∧ see { at300 0 with schedule := [.tick] } (fun t => (t.dt, t.st)) = some (0, 0) := by decide

theorem test_dispRead : see { at300 0 with dirty := true, schedule := [.dispRead] } (fun t => t.dirty) = some false := by decide

theorem test_load : see { State.reset with schedule := [.load (.image [0x12, 0x00])] }
    (fun t => (t.readByte 0x200, t.readByte 0x201, t.romLen, t.pc)) = some (0x12, 0x00, 2, 0x200) := by decide

theorem test_load_empty : see { State.reset with schedule := [.load (.image [])] } (fun t => (t.faults, t.loadError, t.mem)) =
    some ([{ code := .load, pc := 0, opcode := 0, info := 0 }], some { cause := .empty, length := 0 }, []) := by decide

theorem test_reset_leaves_halted :
    see { at300 0 with executor := .halted { code := .keyRange, pc := 0, opcode := 0, info := 16 }, dt := 9, schedule := [.reset] }
      (fun t => (t.executor, t.dt, t.pc, t.readByte 0x09B, t.readByte 0x0A0)) = some (.running, 0, 0x200, 0xF0, 0x00) := by decide

/-- The first cycle after reset with nothing loaded fetches 0x0000 (log 7). -/
theorem test_reset_first_cycle : see State.reset (fun t => (t.pc, t.faults)) =
    some (0x202, [{ code := .decode, pc := 0x200, opcode := 0x0000, info := 0 }]) := by decide

/-! ## Witnesses: a state and operands that meet each statement's hypotheses -/

/-- A running state with a cycle scheduled and 00E0 at pc. -/
def runningAt (w : Nat) : State := { at300 w with schedule := [.cycle 0x0001 (some 7)] }

theorem witness_EncodeInvertsDecode : decodeWord 0x8F26 = some (.shrReg 15 2) := by decide

theorem witness_CycleRunsDecodedInstruction :
    ((runningAt 0x00E0).executor = .running ∧ (runningAt 0x00E0).schedule = [.cycle 0x0001 (some 7)] ∧
      decode [(runningAt 0x00E0).readByte (runningAt 0x00E0).pc, (runningAt 0x00E0).readByte ((runningAt 0x00E0).pc + 1)] =
        .instr .cls []) ∧
    ((at300 0xF00A).executor = .running ∧ (at300 0xF00A).schedule = [] ∧
      decode [(at300 0xF00A).readByte (at300 0xF00A).pc, (at300 0xF00A).readByte ((at300 0xF00A).pc + 1)] =
        .instr (.ldVxK 0) []) := by decide

theorem witness_UnknownWordIsRecordedAndSkipped :
    (runningAt 0x5121).executor = .running ∧ (runningAt 0x5121).schedule = [.cycle 0x0001 (some 7)] ∧
    (0x5121 : Word).toNat = ((runningAt 0x5121).readByte (runningAt 0x5121).pc).toNat * 256 +
      ((runningAt 0x5121).readByte ((runningAt 0x5121).pc + 1)).toNat ∧ decodeWord 0x5121 = none := by decide

theorem witness_OnlyLateLoadIsRefused :
    (∃ src later, ({ State.reset with schedule := [.load (.image [1])], justReset := false } : State).schedule =
      .load src :: later) ∧
    ¬ ((∃ src later, State.reset.schedule = .load src :: later) ∧ State.reset.justReset = false) :=
  ⟨⟨.image [1], [], rfl⟩, fun h => by cases h.2⟩

theorem witness_CallPushesReturnAddress :
    State.reset.sp.val < 16 ∧ ({ State.reset with sp := 15 } : State).sp.val < 16 := by decide

theorem witness_StackLimitsHalt : ({ State.reset with sp := 16 } : State).sp.val = 16 ∧ State.reset.sp.val = 0 := by decide

/-- A full stack whose top entry is 0xFFE, and one entry 0x206. -/
theorem witness_ReturnPopsStack :
    (0 < ({ State.reset with sp := 16, stack := Vector.replicate 16 0xFFE } : State).sp.val ∧
      ({ State.reset with sp := 16, stack := Vector.replicate 16 0xFFE } : State).stack[15]? = some 0xFFE ∧
      (0xFFE : Word).toNat < 0x1000) ∧
    (0 < ({ State.reset with sp := 1, stack := Vector.replicate 16 0x206 } : State).sp.val ∧
      ({ State.reset with sp := 1, stack := Vector.replicate 16 0x206 } : State).stack[0]? = some 0x206 ∧
      (0x206 : Word).toNat < 0x1000) := by decide

theorem witness_ReturnResumesAfterCall : State.reset.sp.val < 16 ∧
    ∃ t, exec (.call 0x210) State.reset = .next t ∧ t.sp.val = 1 ∧ t.stack[0] = 0x202 :=
  ⟨by decide, _, rfl, by decide, by decide⟩

/-- The reset state with I at `a` and LOW_WRITE_POLICY `p`. -/
def storing (a : Word) (p : LowWritePolicy) : State :=
  { State.reset with i := a, params := { Params.default with lowWrite := p } }

/-- I = 0xFFD with three bytes ends at 0xFFF; I = 0x200 is the lowest store; under policy store any I will do. -/
theorem witness_DecimalDigitsAreStored :
    (Memory.wf (storing 0xFFD .fault).params.font (storing 0xFFD .fault).mem = true ∧ (storing 0xFFD .fault).NoLowTarget 3) ∧
    (Memory.wf (storing 0x200 .fault).params.font (storing 0x200 .fault).mem = true ∧ (storing 0x200 .fault).NoLowTarget 3) ∧
    (Memory.wf (storing 0x1FF .store).params.font (storing 0x1FF .store).mem = true ∧
      (storing 0x1FF .store).params.lowWrite = .store) := by
  unfold State.NoLowTarget; decide

/-- For X = F, X = 0 and, under policy store, any X. -/
theorem witness_RegisterBlockIsStored :
    (Memory.wf (storing 0xFF0 .fault).params.font (storing 0xFF0 .fault).mem = true ∧
      (storing 0xFF0 .fault).NoLowTarget ((15 : RegIdx).val + 1)) ∧
    (Memory.wf (storing 0x200 .fault).params.font (storing 0x200 .fault).mem = true ∧
      (storing 0x200 .fault).NoLowTarget ((0 : RegIdx).val + 1)) ∧
    (Memory.wf (storing 0xFFF .store).params.font (storing 0xFFF .store).mem = true ∧
      (storing 0xFFF .store).params.lowWrite = .store) := by
  unfold State.NoLowTarget; decide

/-- The first, the last of three and the last of sixteen targets low. -/
theorem witness_LowStoreHaltsUnderFault :
    ((storing 0x1FF .fault).params.lowWrite = .fault ∧ (storing 0x1FF .fault).LowestLowTarget 3 0) ∧
    ((storing 0xFFE .fault).params.lowWrite = .fault ∧ (storing 0xFFE .fault).LowestLowTarget 3 2) ∧
    ((storing 0xFF1 .fault).params.lowWrite = .fault ∧ (storing 0xFF1 .fault).LowestLowTarget ((15 : RegIdx).val + 1) 15) := by
  unfold State.LowestLowTarget; decide

theorem witness_LowBytesAreDiscarded :
    Memory.wf (storing 0xFFE .discard).params.font (storing 0xFFE .discard).mem = true ∧
    (storing 0xFFE .discard).params.lowWrite = .discard := by decide

theorem witness_StoreThenLoadRestoresRegisters :
    (Memory.wf (storing 0x400 .fault).params.font (storing 0x400 .fault).mem = true ∧
      (storing 0x400 .fault).NoLowTarget ((15 : RegIdx).val + 1)) ∧
    (Memory.wf (storing 0x1FF .store).params.font (storing 0x1FF .store).mem = true ∧
      (storing 0x1FF .store).params.lowWrite = .store) := by
  unfold State.NoLowTarget; decide

theorem witness_StoredBytesAreFetched :
    Memory.wf (storing 0x202 .fault).params.font (storing 0x202 .fault).mem = true ∧ 1 ≤ (1 : RegIdx).val ∧
    (storing 0x202 .fault).i = (storing 0x202 .fault).next2 ∧ (storing 0x202 .fault).NoLowTarget ((1 : RegIdx).val + 1) := by
  unfold State.NoLowTarget; decide

/-- A blank display, I at the font: glyph 0 is not empty and its first bit covers cell 0. -/
theorem witness_DrawingTwiceErases :
    (0 : RegIdx) ≠ vf ∧ (1 : RegIdx) ≠ vf ∧
    (∀ i, i < 2048 → dispCell (storing 0x050 .fault).disp i = false) ∧ ∃ i, (storing 0x050 .fault).SpriteCovers 0 1 5 i := by
  refine ⟨by decide, by decide, fun i _ => ?_, 0, 0, 0, by decide, by decide, by decide, by decide⟩
  simp [storing, State.reset, State.resetWith, dispCell]

/-- Both collision clauses: cell 0 set and covered; nothing set. -/
theorem witness_DrawInvertsCoveredCells :
    (∃ i, i < 2048 ∧ ({ storing 0x050 .fault with disp := dispFlip dispClear 0 } : State).SpriteCovers 0 1 5 i ∧
      dispCell ({ storing 0x050 .fault with disp := dispFlip dispClear 0 } : State).disp i = true) ∧
    (∀ i, i < 2048 → (storing 0x050 .fault).SpriteCovers 0 1 5 i → dispCell (storing 0x050 .fault).disp i = false) := by
  refine ⟨⟨0, by decide, ⟨0, 0, by decide, by decide, by decide, by decide⟩, by decide⟩, fun i _ _ => ?_⟩
  simp [storing, State.reset, State.resetWith, dispCell]

/-- The reset state with requests scheduled. -/
def scheduled (l : List HostStep) : State := { State.reset with schedule := l }

theorem witness_DisplayReadClearsDirty :
    (scheduled [.dispRead]).schedule = [.dispRead] ∧ (scheduled [.dispRead]).isHalted = false := by decide

theorem witness_KeySkipsTestLevel :
    (State.reset.readV 5).toNat ≤ 15 ∧ ((State.reset.writeV 5 15).readV 5).toNat ≤ 15 := by decide

/-- Each policy, with V5 at 16, at 255 and at 23. -/
theorem witness_KeyIndexAboveFifteen :
    (15 < ((State.reset.writeV 5 16).readV 5).toNat ∧ (State.reset.writeV 5 16).params.keyIndex = .fault) ∧
    (15 < (({ State.reset with params := { Params.default with keyIndex := .lowNibble } }.writeV 5 255).readV 5).toNat ∧
      ({ State.reset with params := { Params.default with keyIndex := .lowNibble } }.writeV 5 255).params.keyIndex = .lowNibble) ∧
    (15 < (({ State.reset with params := { Params.default with keyIndex := .notPressed } }.writeV 5 23).readV 5).toNat ∧
      ({ State.reset with params := { Params.default with keyIndex := .notPressed } }.writeV 5 23).params.keyIndex =
        .notPressed) := by decide

theorem witness_WaitStoresLowestPressedKey : LowestKeyEdge 0x8000 0x0000 15 ∧ LowestKeyEdge 0x0003 0x0000 0 := by
  unfold LowestKeyEdge KeyEdge; decide

theorem witness_WaitHoldsPc : ∀ k, ¬ KeyEdge 0x0008 0x0008 k := by
  rintro k ⟨_, h1, h2⟩
  rw [h1] at h2; cases h2

/-- The reset state waiting for a key in V3. -/
def waiting (l : List HostStep) : State := { scheduled l with executor := .awaitingKey 3 }

/-- Both clauses: key 6 goes down, and no key does. -/
theorem witness_AwaitedKeyResumes :
    ((waiting [.cycle 0x0040 none]).executor = .awaitingKey 3 ∧
      (waiting [.cycle 0x0040 none]).schedule = [.cycle 0x0040 none] ∧
      LowestKeyEdge 0x0040 (waiting [.cycle 0x0040 none]).keysPrev 6) ∧
    ((waiting [.cycle 0 none]).executor = .awaitingKey 3 ∧ (waiting [.cycle 0 none]).schedule = [.cycle 0 none] ∧
      ∀ k, ¬ KeyEdge 0 (waiting [.cycle 0 none]).keysPrev k) := by
  refine ⟨⟨rfl, rfl, by unfold LowestKeyEdge KeyEdge; decide⟩, rfl, rfl, ?_⟩
  rintro k ⟨_, h1, _⟩
  simp at h1

theorem witness_WaitSurvivesInterleaving :
    (waiting [.tick, .dispRead, .cycle 0 none, .tick]).executor = .awaitingKey 3 ∧
    ∀ h ∈ (waiting [.tick, .dispRead, .cycle 0 none, .tick]).schedule,
      h = .tick ∨ h = .dispRead ∨ ∃ rnd, h = .cycle (waiting [.tick, .dispRead, .cycle 0 none, .tick]).keysPrev rnd := by
  refine ⟨rfl, ?_⟩
  intro h hm
  simp only [waiting, scheduled, List.mem_cons, List.not_mem_nil, or_false] at hm
  rcases hm with rfl | rfl | rfl | rfl
  · exact .inl rfl
  · exact .inr (.inl rfl)
  · exact .inr (.inr ⟨none, rfl⟩)
  · exact .inl rfl

theorem witness_TickCountsDown :
    ({ scheduled [.tick] with dt := 1, st := 255 } : State).schedule = [.tick] ∧
    ({ scheduled [.tick] with dt := 1, st := 255 } : State).isHalted = false := by decide

theorem witness_TicksReachZeroAndStay :
    ({ scheduled [.tick, .tick, .dispRead] with dt := 2 } : State).schedule = List.replicate 2 .tick ++ [.dispRead] ∧
    ({ scheduled [.tick, .tick, .dispRead] with dt := 2 } : State).isHalted = false := by decide

/-- The premise `step s = .next t` of the statements about every step. -/
theorem witness_step_answers_next : ∃ t, step State.reset = .next t ∧ t.pc = 0x202 := ⟨_, rfl, by decide⟩

theorem witness_InstructionsKeepOtherState : ∃ t, exec (.ldImm 3 7) State.reset = .next t ∧ t.readV 3 = 7 :=
  ⟨_, rfl, by decide⟩

theorem witness_OtherInstructionsAdvancePc : ∃ t, exec .cls State.reset = .next t ∧ t.isHalted = false ∧
    Instr.cls ≠ .ret ∧ (∀ nnn, Instr.cls ≠ .jp nnn ∧ Instr.cls ≠ .call nnn ∧ Instr.cls ≠ .jpV0 nnn) ∧
    (∀ x kk, Instr.cls ≠ .seImm x kk ∧ Instr.cls ≠ .sneImm x kk) ∧ (∀ x y, Instr.cls ≠ .seReg x y ∧ Instr.cls ≠ .sneReg x y) ∧
    (∀ x, Instr.cls ≠ .skp x ∧ Instr.cls ≠ .sknp x ∧ Instr.cls ≠ .ldVxK x) :=
  ⟨_, rfl, by decide, by simp, by simp, by simp, by simp, by simp⟩

/-- A core that a key index of 16 has halted. -/
def haltedWith (l : List HostStep) : State :=
  { scheduled l with executor := .halted { code := .keyRange, pc := 0, opcode := 0, info := 16 } }

/-- Both cases: a call that runs and a return that halts. -/
theorem witness_InstructionFaultsArePrecise : State.reset.executor = .running ∧
    (∃ t, exec (.call 0x210) State.reset = .next t ∧ t.faults = []) ∧
    (∃ t, exec .ret State.reset = .next t ∧ t.isHalted = true) :=
  ⟨rfl, ⟨_, rfl, rfl⟩, ⟨_, rfl, rfl⟩⟩

theorem witness_HaltedCoreIsFrozen :
    (haltedWith [.tick]).isHalted = true ∧ (haltedWith [.tick]).schedule = [.tick] ∧ HostStep.tick ≠ .reset ∧
    ∀ src, HostStep.tick ≠ .load src := ⟨rfl, rfl, by decide, fun _ h => by cases h⟩

theorem witness_ResetLeavesAnyState : (haltedWith [.reset]).schedule = [.reset] := by decide

/-- A one-byte image and the largest one. -/
theorem witness_LoadCopiesImage :
    (Memory.wf (scheduled [.load (.image [0x12])]).params.font (scheduled [.load (.image [0x12])]).mem = true ∧
      (scheduled [.load (.image [0x12])]).justReset = true ∧ 1 ≤ ([0x12] : List Byte).length ∧
      ([0x12] : List Byte).length ≤ 3584) ∧
    ((scheduled [.load (.image (List.replicate 3584 0x12))]).justReset = true ∧
      (List.replicate 3584 (0x12 : Byte)).length ≤ 3584) :=
  ⟨by decide, rfl, Nat.le_of_eq List.length_replicate⟩

/-- An empty image, one a byte too long, and an unreadable source. -/
theorem witness_LoadErrorWritesNothing :
    ((scheduled [.load (.image [])]).justReset = true ∧ ([] : List Byte).length = 0) ∧
    ((scheduled [.load (.image (List.replicate 3585 0))]).justReset = true ∧
      (List.replicate 3585 (0 : Byte)).length = 3585 ∧ 3584 < 3585) ∧
    ((scheduled [.load (.unreadable 70000)]).justReset = true ∧
      (scheduled [.load (.unreadable 70000)]).schedule = [.load (.unreadable 70000)]) :=
  ⟨⟨rfl, rfl⟩, ⟨rfl, List.length_replicate, by omega⟩, rfl, rfl⟩

/-! ## A fair run exists (R226) -/

/-- A core that waits for a key, with this delay timer. -/
def waitingWith (d : Byte) : State := { waiting [] with dt := d, justReset := false }

/-- Ticks and cycles without a key, in turn. -/
def inTurn (n : Nat) : HostStep := if n % 2 = 0 then .tick else .cycle 0 none

/-- The delay timer before step n of that run, 5 at first. -/
def delayAt : Nat → Byte
  | 0 => 5
  | n + 1 => if n % 2 = 0 then countDown (delayAt n) else delayAt n

/-- A tick and a cycle without a key, from any delay timer. -/
theorem waitingWith_steps (d : Byte) : step ((waitingWith d).request .tick) = .next (waitingWith (countDown d)) ∧
    step ((waitingWith d).request (.cycle 0 none)) = .next (waitingWith d) := by
  have he : lowestEdge 0 0 = none := by decide
  refine ⟨rfl, ?_⟩
  show Host.Outcome.next (State.endCycle (State.awaitKey _ 3)) = _
  rw [awaitKey_none 3 (show lowestEdge _ _ = none from he)]
  rfl

/-- The run is fair, its core is never halted, and its delay timer falls from 5: the premises of FairRun.delay_reaches_zero. -/
theorem witness_FairRun : FairRun inTurn (fun n => waitingWith (delayAt n)) ∧
    NeverHalted (fun n => waitingWith (delayAt n)) ∧ (waitingWith (delayAt 0)).dt = 5 ∧ (waitingWith (delayAt 3)).dt = 3 ∧
    ∀ n, (waitingWith (delayAt (n + 1))).dt.toNat ≤ (waitingWith (delayAt n)).dt.toNat := by
  refine ⟨⟨fun n => ?_, fun _ => ⟨fun n => ⟨2 * n, by omega, ?_⟩, fun n => ⟨2 * n + 1, by omega, 0, none, ?_⟩⟩⟩,
    fun _ => rfl, rfl, by decide, fun n => ?_⟩
  · by_cases h : n % 2 = 0 <;> simp only [inTurn, delayAt, h, reduceIte]
    · exact (waitingWith_steps _).1
    · exact (waitingWith_steps _).2
  · simp [inTurn]
  · simp [inTurn]
  · show (delayAt (n + 1)).toNat ≤ (delayAt n).toNat
    rw [delayAt]
    split
    · rw [countDown_toNat]; omega
    · exact Nat.le_refl _

/-- The premises of the two invariants' steps: reset meets both, with a policy other than store. -/
theorem witness_invariants_at_reset :
    State.reset.Inv ∧ State.reset.LowIntact ∧ State.reset.params.lowWrite ≠ .store ∧ ∃ t, step State.reset = .next t := by
  refine ⟨⟨by decide, by decide, by decide, by decide, by decide, ?_, ?_⟩, fun _ _ => rfl, by decide, _, rfl⟩
  · intro f hf; cases hf
  · intro f hf; cases hf

end Sys2Proof.Tests
end

section
/-! SUPPORT. What executing an instruction can do to the state, said once for all 34 instructions, and what a load can do. -/

namespace Sys2Proof.Machine

/-- The six kinds of effect an instruction has. Whatever an effect does not name stays as it was. -/
inductive Effect (s : State) : State → Prop
  /-- pc moves, and V registers, I, the timers, the display or the draw count may change -/
  | moves {t : State} (hpc : t.pc.toNat < 0x1000) (hi : t.i = s.i ∨ t.i.toNat < 0x1000)
      (hframe : t = { s with
        v := t.v, i := t.i, pc := t.pc, dt := t.dt, st := t.st, disp := t.disp, dirty := t.dirty, draws := t.draws }) :
      Effect s t
  /-- a return address is pushed and pc moves (41_control_flow.md R122) -/
  | calls {t : State} (target : Word) (h : s.pushReturn = some t) : Effect s (t.setPc target)
  /-- the top return address is popped (R120) -/
  | returns {t : State} (h : s.popReturn = some t) : Effect s t
  /-- the bytes of a store at I are written (20_memory.md R67) -/
  | stores (bytes : List Byte) : Effect s (s.memWrites s.i bytes).advance
  /-- FX0A finds no edge (45_keys_timers.md R215) -/
  | waits (x : RegIdx) : Effect s { s with executor := .awaitingKey x }
  /-- a fatal fault with a record of its kind's form (60_exceptions.md R241) -/
  | faults (code : FaultCode) (op info : Word)
      (hlegal : s.pc.toNat < 0x1000 → FaultRecord.Legal { code := code, pc := s.pc, opcode := op, info := info }) :
      Effect s (s.raiseFatal code op info)

theorem effect_skipIf (s : State) (c : Bool) : Effect s (s.skipIf c) := by
  rw [skipIf_eq]
  refine .moves ?_ (.inl rfl) rfl
  cases c
  · exact maskAddr_lt (s.pc + 2)
  · exact maskAddr_lt (s.pc + 4)

theorem effect_storeAtI (s : State) (op : Word) (bytes : List Byte) : Effect s (s.storeAtI op bytes) := by
  obtain ⟨a, _, hlow, heq⟩ | ⟨_, heq⟩ := storeAtI_cases s op bytes <;> rw [heq]
  · exact .faults .protection op a fun hpc => ⟨hpc, firstLow_lt hlow⟩
  · exact .stores bytes

theorem sp_of_pushReturn_none {s : State} (h : s.pushReturn = none) : s.sp.val = 16 := by
  by_contra hne
  obtain ⟨t, ht, _⟩ := pushReturn_some (s := s) (by omega)
  simp [h] at ht

theorem lt_of_keyLevel_none {s : State} {k : Byte} (h : s.keyLevel k = none) : 15 < k.toNat := by
  by_contra hle
  simp [State.keyLevel, show k.toNat ≤ 15 by omega] at h

theorem keyRange_legal {s : State} {k : Byte} (op : Word) (h : s.keyLevel k = none) (hpc : s.pc.toNat < 0x1000) :
    FaultRecord.Legal { code := .keyRange, pc := s.pc, opcode := op, info := widen k } := by
  have hw : (widen k).toNat = k.toNat := by simp [widen]; omega
  exact ⟨hpc, by rw [hw]; exact lt_of_keyLevel_none h, by rw [hw]; exact k.isLt⟩

/-- Every instruction answers a next state, and its effect is one of the six. -/
theorem exec_effect (i : Instr) (s : State) : ∃ t, exec i s = .next t ∧ Effect s t := by
  match i with
  | .cls | .jp _ | .jpV0 _ | .ldImm _ _ | .addImm _ _ | .ldReg _ _ | .orReg _ _ | .andReg _ _ | .xorReg _ _
  | .addReg _ _ | .subReg _ _ | .shrReg _ _ | .subnReg _ _ | .shlReg _ _ | .rnd _ _ | .drw _ _ _
  | .ldVxDt _ | .ldDtVx _ | .ldStVx _ | .loadRegs _ => exact ⟨_, rfl, .moves (maskAddr_lt _) (.inl rfl) rfl⟩
  | .ldI _ | .addI _ | .ldF _ => exact ⟨_, rfl, .moves (maskAddr_lt _) (.inr (maskAddr_lt _)) rfl⟩
  | .seImm _ _ | .sneImm _ _ | .seReg _ _ | .sneReg _ _ => exact ⟨_, rfl, effect_skipIf _ _⟩
  | .ldB _ | .storeRegs _ => exact ⟨_, rfl, effect_storeAtI _ _ _⟩
  | .ret =>
    simp only [exec, execRet]
    cases h : s.popReturn with
    | some t => exact ⟨t, rfl, .returns h⟩
    | none => exact ⟨_, rfl, .faults _ _ _ fun hpc => ⟨hpc, rfl⟩⟩
  | .call nnn =>
    simp only [exec, execCall]
    cases h : s.pushReturn with
    | some t => exact ⟨_, rfl, .calls _ h⟩
    | none => exact ⟨_, rfl, .faults _ _ _ fun hpc => ⟨hpc, congrArg (BitVec.ofNat 16) (sp_of_pushReturn_none h)⟩⟩
  | .skp x =>
    simp only [exec, execSkp]
    cases h : s.keyLevel (s.readV x) with
    | some pressed => exact ⟨_, rfl, effect_skipIf _ _⟩
    | none => exact ⟨_, rfl, .faults _ _ _ (keyRange_legal _ h)⟩
  | .sknp x =>
    simp only [exec, execSknp]
    cases h : s.keyLevel (s.readV x) with
    | some pressed => exact ⟨_, rfl, effect_skipIf _ _⟩
    | none => exact ⟨_, rfl, .faults _ _ _ (keyRange_legal _ h)⟩
  | .ldVxK x =>
    simp only [exec, execLdVxK]
    cases lowestEdge s.keys s.keysPrev with
    | some k => exact ⟨_, rfl, .moves (maskAddr_lt _) (.inl rfl) rfl⟩
    | none => exact ⟨_, rfl, .waits x⟩

/-- A load copies an image of legal length and records that length, or fails. -/
theorem doLoad_cases (s : State) (src : LoadSource) :
    (∃ bytes, bytes.length ≤ maxRom ∧ s.doLoad src = { s.pokeBytes 0x200 bytes with romLen := bytes.length }) ∨
    (∃ cause len, s.doLoad src = s.failLoad cause len) := by
  cases src with
  | unreadable declared => exact .inr ⟨_, _, rfl⟩
  | image bytes =>
    simp only [State.doLoad]
    split
    · next hlen => exact .inl ⟨bytes, (of_decide_eq_true hlen).2, rfl⟩
    · split
      · exact .inr ⟨_, _, rfl⟩
      · exact .inr ⟨_, _, rfl⟩

end Sys2Proof.Machine
end

section
/-! SUPPORT. The induction over a step, packaged once: a predicate that every part of a step keeps is kept by the step. -/

namespace Sys2Proof.Machine

/-- The predicate is kept by every part of a step: the effects of an instruction, and the host's steps that execute none. -/
structure StepParts (P : State → Prop) : Prop where
  /-- the schedule, the inputs, keys_prev and the admission of a load -/
  bookkeeping : ∀ {s t : State}, P s → t = { s with
    schedule := t.schedule, keys := t.keys, rnd := t.rnd, keysPrev := t.keysPrev, justReset := t.justReset } → P t
  effect : ∀ {s t : State}, P s → Effect s t → P t
  raiseDecode : ∀ {s : State} (w : Word), P s → P (s.raiseDecode w)
  awaitKey : ∀ {s : State} (x : RegIdx), P s → P (s.awaitKey x)
  tick : ∀ {s : State}, P s → P s.tick
  dispRead : ∀ {s : State}, P s → P s.dispRead
  doReset : ∀ {s : State}, P s → P s.doReset
  doLoad : ∀ {s : State} (src : LoadSource), P s → P (s.doLoad src)

section
variable {P : State → Prop} (hP : StepParts P)
include hP

theorem StepParts.cycle {s t : State} {keys : Keys} {rnd : Option Byte} (hs : P s)
    (h : Machine.cycle s keys rnd = .next t) : P t := by
  have hin : P (s.sample keys rnd) := hP.bookkeeping hs rfl
  have hend : ∀ {u : State}, P u → P u.endCycle := fun hu => hP.bookkeeping hu rfl
  obtain ⟨_, hc⟩ | ⟨x, _, hc⟩ | ⟨i, _, _, _, hc⟩ | ⟨w, _, _, _, hc⟩ := cycle_cases s keys rnd <;> rw [hc] at h
  · cases h; exact hs
  · cases h; exact hend (hP.awaitKey x hin)
  · obtain ⟨u, hu, heff⟩ := exec_effect i (s.sample keys rnd)
    rw [hu] at h
    cases h; exact hend (hP.effect hin heff)
  · cases h; exact hend (hP.raiseDecode w hin)

theorem StepParts.hostStep {s t : State} {req : HostStep} (hs : P s) (h : Machine.hostStep req s = .next t) : P t := by
  have htaken : P s.stepTaken := hP.bookkeeping hs rfl
  cases req with
  | cycle keys rnd => exact hP.cycle htaken h
  | tick => cases h; exact hP.tick htaken
  | dispRead => cases h; exact hP.dispRead htaken
  | reset => cases h; exact hP.doReset hs
  | load src =>
    simp only [Machine.hostStep] at h
    split at h
    · cases h; exact hP.doLoad src htaken
    · cases h

theorem StepParts.step {s t : State} (hs : P s) (h : Machine.step s = .next t) : P t := by
  cases hq : s.schedule with
  | nil => rw [step_nil hq] at h; exact hP.hostStep hs h
  | cons req later => rw [step_cons hq] at h; exact hP.hostStep (hP.bookkeeping hs rfl) h

end

end Sys2Proof.Machine
end

section
/-! SUPPORT. The invariant of the machine is kept by every part of a step. -/

namespace Sys2Proof.Machine

theorem loadRecord_legal (info : Word) : FaultRecord.Legal { code := .load, pc := 0, opcode := 0, info := info } :=
  ⟨by show (0 : Word).toNat < 0x1000; decide, rfl, rfl⟩

section
variable {s t : State} (hs : s.Inv)
include hs

/-- The fields that the invariant does not speak of may change. -/
theorem State.Inv.frame (ht : t = { s with
    v := t.v, sp := t.sp, dt := t.dt, st := t.st, disp := t.disp, dirty := t.dirty, keysPrev := t.keysPrev
    loadError := t.loadError, schedule := t.schedule, keys := t.keys, rnd := t.rnd, draws := t.draws
    justReset := t.justReset }) : t.Inv := by
  rw [ht]
  exact ⟨hs.pc_lt, hs.i_lt, hs.stack_lt, hs.mem_wf, hs.romLen_le, hs.faults_legal, hs.halted_recorded⟩

theorem State.Inv.setPc (a : Word) : (s.setPc a).Inv := { hs with pc_lt := maskAddr_lt a }

/-- The executor may change to a state that is not halted. -/
theorem State.Inv.leaveExecutor {e : Executor} (he : ∀ f, e ≠ .halted f) : { s with executor := e }.Inv :=
  { hs with halted_recorded := fun f hf => absurd hf (he f) }

theorem State.Inv.record {f : FaultRecord} (hf : f.Legal) : (s.record f).Inv :=
  { hs with
    faults_legal := fun g hg => by
      obtain hg | rfl := by simpa using hg
      · exact hs.faults_legal g hg
      · exact hf
    halted_recorded := fun g hg => List.mem_append_left [f] (hs.halted_recorded g hg) }

theorem State.Inv.halt {f : FaultRecord} (hf : f.Legal) : (s.halt f).Inv :=
  { hs.record hf with
    halted_recorded := fun g hg => by cases hg; exact List.mem_append_right s.faults (List.mem_singleton_self f) }

theorem State.Inv.pushReturn (h : s.pushReturn = some t) : t.Inv := by
  unfold State.pushReturn at h
  split at h
  · cases h
    refine { hs with stack_lt := fun k => ?_ }
    simp only [Fin.getElem_fin, Vector.getElem_set]
    split
    · exact maskAddr_lt (s.pc + 2)
    · exact hs.stack_lt k
  · cases h

theorem State.Inv.popReturn (h : s.popReturn = some t) : t.Inv := by
  unfold State.popReturn at h
  split at h
  · cases h
    exact State.Inv.setPc (hs.frame rfl) _
  · cases h

theorem State.Inv.memWrites (a : Word) (bytes : List Byte) : (s.memWrites a bytes).Inv := by
  rw [memWrites_eq]
  exact { hs with mem_wf := memWrites_wf a bytes hs.mem_wf }

theorem State.Inv.effect (h : Effect s t) : t.Inv := by
  cases h with
  | moves hpc hi hframe =>
    have hi' : t.i.toNat < 0x1000 := hi.elim (fun he => he ▸ hs.i_lt) id
    rw [hframe]
    exact { hs with pc_lt := hpc, i_lt := hi' }
  | calls target h => exact (hs.pushReturn h).setPc target
  | returns h => exact hs.popReturn h
  | stores bytes => exact (hs.memWrites s.i bytes).setPc _
  | waits x => exact hs.leaveExecutor nofun
  | faults code op info hlegal => exact hs.halt (hlegal hs.pc_lt)

theorem State.Inv.awaitKey (x : RegIdx) : (s.awaitKey x).Inv := by
  cases he : lowestEdge s.keys s.keysPrev with
  | none => rwa [awaitKey_none x he]
  | some k =>
    rw [awaitKey_some x he]
    have hw : (s.writeV x (BitVec.ofNat 8 k)).Inv := hs.frame rfl
    exact (hw.setPc _).leaveExecutor nofun

theorem State.Inv.tick : s.tick.Inv := by
  unfold State.tick
  split
  · exact hs
  · exact hs.frame rfl

theorem State.Inv.dispRead : s.dispRead.Inv := by
  unfold State.dispRead
  split
  · exact hs
  · exact hs.frame rfl

theorem State.Inv.failLoad (cause : LoadCause) (len : Nat) : (s.failLoad cause len).Inv :=
  State.Inv.frame (hs.halt (loadRecord_legal (loadInfo len))) rfl

theorem State.Inv.doLoad (src : LoadSource) : (s.doLoad src).Inv := by
  obtain ⟨bytes, hlen, heq⟩ | ⟨cause, len, heq⟩ := doLoad_cases s src <;> rw [heq]
  · rw [pokeBytes_eq]
    exact { hs with mem_wf := pokeBytes_wf 0x200 bytes hs.mem_wf, romLen_le := hlen }
  · exact hs.failLoad cause len

end

theorem resetWith_inv (p : Params) : (State.resetWith p).Inv where
  pc_lt := by show (0x200 : Word).toNat < 0x1000; decide
  i_lt := by show (0 : Word).toNat < 0x1000; decide
  stack_lt k := by simp [State.resetWith]
  mem_wf := rfl
  romLen_le := Nat.zero_le maxRom
  faults_legal f hf := by cases hf
  halted_recorded f hf := by cases hf

theorem inv_stepParts : StepParts State.Inv where
  bookkeeping hs ht := hs.frame (by rw [ht])
  effect hs h := hs.effect h
  raiseDecode _ hs := (hs.record ⟨hs.pc_lt, rfl⟩).setPc _
  awaitKey x hs := hs.awaitKey x
  tick hs := hs.tick
  dispRead hs := hs.dispRead
  doReset _ := (resetWith_inv _).frame rfl
  doLoad src hs := hs.doLoad src

end Sys2Proof.Machine
end

section
/-! SUPPORT. The parameters are changed by no part of a step. -/

namespace Sys2Proof.Machine

theorem Effect.params {s t : State} (h : Effect s t) : t.params = s.params := by
  cases h with
  | moves _ _ hframe => rw [hframe]
  | calls _ h => rw [setPc_params, pushReturn_frame h]
  | returns h => rw [popReturn_frame h]
  | stores bytes => rw [advance_params, memWrites_eq]
  | waits _ => rfl
  | faults _ _ _ _ => rfl

theorem awaitKey_params (s : State) (x : RegIdx) : (s.awaitKey x).params = s.params := by
  unfold State.awaitKey; split <;> rfl

theorem tick_params (s : State) : s.tick.params = s.params := by
  unfold State.tick; split <;> rfl

theorem dispRead_params (s : State) : s.dispRead.params = s.params := by
  unfold State.dispRead; split <;> rfl

theorem doLoad_params (s : State) (src : LoadSource) : (s.doLoad src).params = s.params := by
  obtain ⟨bytes, _, heq⟩ | ⟨cause, len, heq⟩ := doLoad_cases s src <;> rw [heq]
  · rw [pokeBytes_eq]
  · rfl

theorem params_stepParts (p : Params) : StepParts (fun s => s.params = p) where
  bookkeeping hs ht := by rw [ht]; exact hs
  effect hs h := h.params.trans hs
  raiseDecode _ hs := hs
  awaitKey x hs := (awaitKey_params _ x).trans hs
  tick hs := (tick_params _).trans hs
  dispRead hs := (dispRead_params _).trans hs
  doReset hs := hs
  doLoad src hs := (doLoad_params _ src).trans hs

end Sys2Proof.Machine
end

section
/-! Family 10_state.md: the display flag, the parameters and the invariant. -/

namespace Sys2Proof.Machine

/-- Settles O58: the invariant is kept by every part of a step. -/
theorem stepKeepsInvariant : Obligations.StepKeepsInvariant :=
  fun _ _ hs h => inv_stepParts.step hs h

/-- Settles O60: the parameters are changed by no part of a step, reset included. -/
theorem parametersNeverChange : Obligations.ParametersNeverChange :=
  fun s _ h => (params_stepParts s.params).step rfl h

/-- Settles O37: a core that is not halted takes the read, which clears dirty. -/
theorem displayReadClearsDirty : Obligations.DisplayReadClearsDirty := by
  intro s later hsched hrun
  have hrun' : (s.after later).isHalted = false := hrun
  rw [step_cons hsched]
  show Host.Outcome.next (s.after later).dispRead = _
  rw [State.dispRead, hrun']
  rfl

end Sys2Proof.Machine
end

section
/-! SUPPORT. The bytes below 0x200, the font among them: which parts of a step leave them alone (20_memory.md R66, R67, R68). -/

namespace Sys2Proof.Machine

theorem maskAddr_ne_of_low {a b : Word} (ha : a.toNat < 0x200) (hb : 0x200 ≤ (maskAddr b).toNat) :
    maskAddr a ≠ maskAddr b := by
  intro he
  rw [← he, maskAddr_of_lt a (by omega)] at hb
  omega

/-- Unless the policy is store, one byte of a store leaves every byte below 0x200 alone. -/
theorem readByte_memWrite_low {s : State} {a b : Word} (v : Byte) (hp : s.params.lowWrite ≠ .store)
    (ha : a.toNat < 0x200) : (s.memWrite b v).readByte a = s.readByte a := by
  cases hl : isLow b with
  | true => rw [memWrite_of_discarded v hl hp]
  | false =>
    rw [memWrite_of_writable v (.inl hl)]
    refine readByte_pokeByte_other v (maskAddr_ne_of_low ha ?_)
    by_contra hlt
    simp [(isLow_iff b).mpr (by omega)] at hl

theorem readByte_memWrites_low {s : State} {a : Word} (b : Word) (bytes : List Byte) (hp : s.params.lowWrite ≠ .store)
    (ha : a.toNat < 0x200) : (s.memWrites b bytes).readByte a = s.readByte a := by
  induction bytes generalizing s b with
  | nil => rfl
  | cons v vs ih =>
    rw [State.memWrites, ih (b + 1) (by rw [memWrite_eq]; exact hp), readByte_memWrite_low v hp ha]

/-- An image of legal length lies between 0x200 and 0xFFF. -/
theorem readByte_pokeBytes_image_low {s : State} {a : Word} {bytes : List Byte} (hlen : bytes.length ≤ maxRom)
    (ha : a.toNat < 0x200) : (s.pokeBytes 0x200 bytes).readByte a = s.readByte a := by
  refine pokeBytes_read_other fun k hk => maskAddr_ne_of_low ha ?_
  rw [maskAddr_toNat, BitVec.toNat_add, BitVec.toNat_ofNat, show (0x200 : Word).toNat = 0x200 from rfl]
  unfold maxRom at hlen
  omega

theorem lowIntact_iff (s : State) :
    s.LowIntact ↔ ∀ a : Word, a.toNat < 0x200 → s.readByte a = unlistedByte s.params.font a.toNat := by
  constructor
  · intro h a ha
    rw [State.readByte, maskAddr_of_lt a (by omega)]
    exact h a.toNat ha
  · intro h a ha
    have hval : (BitVec.ofNat 16 a).toNat = a := by rw [BitVec.toNat_ofNat]; omega
    have hread := h (BitVec.ofNat 16 a) (by omega)
    rwa [State.readByte, maskAddr_of_lt _ (by omega), hval] at hread

/-- The bytes below 0x200 are intact, and the policy lets no instruction write there. -/
structure State.LowProtected (s : State) : Prop where
  policy : s.params.lowWrite ≠ .store
  intact : s.LowIntact

section
variable {s t : State} (hs : s.LowProtected)
include hs

theorem State.LowProtected.of_readByte (hp : t.params = s.params)
    (hread : ∀ a : Word, a.toNat < 0x200 → t.readByte a = s.readByte a) : t.LowProtected where
  policy := hp ▸ hs.policy
  intact := (lowIntact_iff t).mpr fun a ha => by rw [hread a ha, hp]; exact (lowIntact_iff s).mp hs.intact a ha

theorem State.LowProtected.frame (hp : t.params = s.params) (hm : t.mem = s.mem) : t.LowProtected :=
  hs.of_readByte hp fun a _ => readByte_congr hm hp a

/-- Of the six effects only a store writes memory, and it discards the bytes below 0x200. -/
theorem State.LowProtected.effect (h : Effect s t) : t.LowProtected := by
  have hp := h.params
  cases h with
  | moves _ _ hframe => exact hs.frame hp (by rw [hframe])
  | calls _ h => exact hs.frame hp (by rw [setPc_mem, pushReturn_frame h])
  | returns h => exact hs.frame hp (by rw [popReturn_frame h])
  | stores bytes => exact hs.of_readByte hp fun a ha => readByte_memWrites_low s.i bytes hs.policy ha
  | waits _ => exact hs.frame hp rfl
  | faults _ _ _ _ => exact hs.frame hp rfl

theorem State.LowProtected.awaitKey (x : RegIdx) : (s.awaitKey x).LowProtected :=
  hs.frame (awaitKey_params s x) (by unfold State.awaitKey; split <;> rfl)

theorem State.LowProtected.tick : s.tick.LowProtected :=
  hs.frame (tick_params s) (by unfold State.tick; split <;> rfl)

theorem State.LowProtected.dispRead : s.dispRead.LowProtected :=
  hs.frame (dispRead_params s) (by unfold State.dispRead; split <;> rfl)

theorem State.LowProtected.doLoad (src : LoadSource) : (s.doLoad src).LowProtected := by
  refine hs.of_readByte (doLoad_params s src) fun a ha => ?_
  obtain ⟨bytes, hlen, heq⟩ | ⟨cause, len, heq⟩ := doLoad_cases s src <;> rw [heq]
  · exact readByte_pokeBytes_image_low hlen ha
  · rfl

end

theorem lowProtected_stepParts : StepParts State.LowProtected where
  bookkeeping hs ht := hs.frame (by rw [ht]) (by rw [ht])
  effect hs h := hs.effect h
  raiseDecode _ hs := hs.frame rfl rfl
  awaitKey x hs := hs.awaitKey x
  tick hs := hs.tick
  dispRead hs := hs.dispRead
  doReset hs := ⟨hs.policy, fun _ _ => rfl⟩
  doLoad src hs := hs.doLoad src

end Sys2Proof.Machine
end

section
/-! SUPPORT. The fields of an encoded word, format by format, and that the decoder reads each instruction back (30_encoding.md R81,
R82). -/

namespace Sys2Proof

/-- The two bytes of a word, big-endian, give the word back (20_memory.md R65). -/
theorem opcodeOf_wordBytes (w : Word) : opcodeOf (highByte w) (lowByte w) = w := by
  apply BitVec.eq_of_getLsbD_eq
  intro j hj
  simp only [opcodeOf, highByte, lowByte, BitVec.getLsbD_or, BitVec.getLsbD_shiftLeft, BitVec.getLsbD_setWidth,
    BitVec.getLsbD_extractLsb']
  interval_cases j <;> simp

theorem regIdx_of_regField {field : BitVec 4} {x : RegIdx} (h : field = regField x) :
    (⟨field.toNat, field.isLt⟩ : RegIdx) = x := by
  subst h
  exact Fin.ext (Nat.mod_eq_of_lt x.isLt)

section
variable (op : BitVec 4) (nnn : Addr12) (x y : RegIdx) (kk : Byte) (n : Fin 16)

@[simp] theorem fieldOp_formatA : fieldOp (formatA op nnn) = op.toNat :=
  congrArg BitVec.toNat BitVec.extractLsb'_append_eq_left

@[simp] theorem fieldNNN_formatA : fieldNNN (formatA op nnn) = nnn := BitVec.extractLsb'_append_eq_right

@[simp] theorem fieldOp_formatXK : fieldOp (formatXK op x kk) = op.toNat := by
  rw [fieldOp, formatXK, BitVec.extractLsb'_append_eq_of_le (by decide), BitVec.extractLsb'_append_eq_left]

@[simp] theorem fieldX_formatXK : fieldX (formatXK op x kk) = x :=
  regIdx_of_regField (by
    rw [formatXK, BitVec.extractLsb'_append_eq_of_le (by decide), BitVec.extractLsb'_append_eq_right])

@[simp] theorem fieldNN_formatXK : fieldNN (formatXK op x kk) = kk := BitVec.extractLsb'_append_eq_right

/-- Format XY is format XK with Y and the low nibble as NN. -/
theorem formatXY_eq_formatXK : formatXY op x y n = formatXK op x (regField y ++ regField n) :=
  BitVec.append_assoc

@[simp] theorem fieldOp_formatXY : fieldOp (formatXY op x y n) = op.toNat := by
  rw [formatXY_eq_formatXK, fieldOp_formatXK]

@[simp] theorem fieldX_formatXY : fieldX (formatXY op x y n) = x := by
  rw [formatXY_eq_formatXK, fieldX_formatXK]

@[simp] theorem fieldY_formatXY : fieldY (formatXY op x y n) = y :=
  regIdx_of_regField (by
    rw [formatXY, BitVec.extractLsb'_append_eq_of_le (by decide), BitVec.extractLsb'_append_eq_right])

@[simp] theorem fieldN_formatXY : fieldN (formatXY op x y n) = n :=
  regIdx_of_regField BitVec.extractLsb'_append_eq_right

end

/-- The encoder fixes the leading nibble, and the low nibble or the low byte where its family has one, and the dispatch on these
finds the constructor. -/
theorem decodeWord_encode (i : Instr) : decodeWord (encode i) = some i := by
  match i with
  | .cls | .ret => decide
  | .jp _ | .call _ | .ldI _ | .jpV0 _ | .seImm _ _ | .sneImm _ _ | .ldImm _ _ | .addImm _ _ | .rnd _ _ | .drw _ _ _ =>
    simp [encode, decodeWord]
  | .seReg _ _ | .sneReg _ _ => simp [encode, decodeWord, decodeLowZero]
  | .ldReg _ _ | .orReg _ _ | .andReg _ _ | .xorReg _ _ | .addReg _ _ | .subReg _ _ | .shrReg _ _ | .subnReg _ _
  | .shlReg _ _ => simp [encode, decodeWord, decodeFamily8]
  | .skp _ | .sknp _ => simp [encode, decodeWord, decodeFamilyE]
  | .ldVxDt _ | .ldVxK _ | .ldDtVx _ | .ldStVx _ | .addI _ | .ldF _ | .ldB _ | .storeRegs _ | .loadRegs _ =>
    simp [encode, decodeWord, decodeFamilyF]

end Sys2Proof
end

section
/-! SUPPORT. The store at I: when it halts, and what it writes and leaves alone (20_memory.md R67). -/

namespace Sys2Proof.Machine

theorem isLow_target (s : State) (k : Nat) :
    isLow (s.i + BitVec.ofNat 16 k) = true ↔ (s.i.toNat + k) % 0x1000 < 0x200 := by
  rw [isLow_iff, ← atI_toNat, State.atI]

theorem isLow_target_eq_false (s : State) (k : Nat) :
    isLow (s.i + BitVec.ofNat 16 k) = false ↔ 0x200 ≤ (s.i.toNat + k) % 0x1000 := by
  rw [← Bool.not_eq_true, isLow_target, Nat.not_lt]

theorem firstLow_of_lowestLowTarget {s : State} {n k : Nat} (h : s.LowestLowTarget n k) :
    firstLow s.i n = some (s.atI k) := by
  obtain ⟨hk, hlow, hbefore⟩ := h
  exact firstLow_some hk ((isLow_target s k).mpr hlow) fun j hj => (isLow_target_eq_false s j).mpr (hbefore j hj)

theorem firstLow_of_noLowTarget {s : State} {n : Nat} (h : s.NoLowTarget n) : firstLow s.i n = none :=
  firstLow_none.mpr fun k hk => (isLow_target_eq_false s k).mpr (h k hk)

theorem storeAtI_halts {s : State} {bytes : List Byte} {k : Nat} (op : Word) (hp : s.params.lowWrite = .fault)
    (h : s.LowestLowTarget bytes.length k) :
    s.storeAtI op bytes = s.halt { code := .protection, pc := s.pc, opcode := op, info := s.atI k } := by
  unfold State.storeAtI
  rw [hp, firstLow_of_lowestLowTarget h]
  rfl

theorem storeAtI_writes {s : State} {bytes : List Byte} (op : Word)
    (h : s.params.lowWrite = .fault → s.NoLowTarget bytes.length) :
    s.storeAtI op bytes = (s.memWrites s.i bytes).advance := by
  obtain ⟨a, hp, hlow, _⟩ | ⟨_, heq⟩ := storeAtI_cases s op bytes
  · rw [firstLow_of_noLowTarget (h hp)] at hlow
    cases hlow
  · exact heq

theorem memWrites_advance_pc (s : State) (a : Word) (bytes : List Byte) :
    (s.memWrites a bytes).advance.pc = s.next2 := by
  rw [memWrites_eq]; rfl

theorem onlyStore_memWrites (s : State) {bytes : List Byte} {n : Nat} (hlen : bytes.length = n) :
    s.OnlyStore (s.memWrites s.i bytes).advance n :=
  ⟨fun _ h => memWrites_read_other (hlen ▸ h), by rw [memWrites_eq]; rfl⟩

/-- The k-th target of a store at I holds the k-th byte, unless the policy discards it. -/
theorem readByte_memWrites_atI {s : State} {bytes : List Byte} {k : Nat} (hw : Memory.wf s.params.font s.mem = true)
    (hlen : bytes.length ≤ 0x1000) (hk : k < bytes.length) :
    (s.memWrites s.i bytes).readByte (s.atI k) =
      if (s.i.toNat + k) % 0x1000 < 0x200 ∧ s.params.lowWrite ≠ .store then s.readByte (s.atI k) else bytes[k] := by
  simp only [State.atI, readByte_maskAddr, memWrites_read_target hw hlen hk, isLow_target]

theorem decimalDigits_getElem_toNat (b : Byte) {k : Nat} (hk : k < 3) :
    ((decimalDigits b)[k]'hk).toNat = b.toNat / 10 ^ (2 - k) % 10 := by
  have hb := b.isLt
  match k with
  | 0 => show b.toNat / 100 % 2 ^ 8 = b.toNat / 100 % 10; omega
  | 1 => show b.toNat / 10 % 10 % 2 ^ 8 = b.toNat / 10 % 10; omega
  | 2 => show b.toNat % 10 % 2 ^ 8 = b.toNat / 1 % 10; omega

/-- FX33 stores the k-th digit at the k-th target, unless the policy discards it. -/
theorem readByte_storedDigits {s : State} {k : Nat} (x : RegIdx) (hw : Memory.wf s.params.font s.mem = true) (hk : k < 3) :
    ((s.memWrites s.i (decimalDigits (s.readV x))).readByte (s.atI k)).toNat =
      if (s.i.toNat + k) % 0x1000 < 0x200 ∧ s.params.lowWrite ≠ .store then (s.readByte (s.atI k)).toNat
      else (s.readV x).toNat / 10 ^ (2 - k) % 10 := by
  rw [readByte_memWrites_atI hw (by simp [decimalDigits]) hk, ← decimalDigits_getElem_toNat (s.readV x) hk]
  split <;> rfl

theorem exec_ldB_writes {s : State} (x : RegIdx) (h : s.params.lowWrite = .fault → s.NoLowTarget 3) :
    exec (.ldB x) s = .next (s.memWrites s.i (decimalDigits (s.readV x))).advance :=
  congrArg Host.Outcome.next (storeAtI_writes (bytes := decimalDigits (s.readV x)) (encode (.ldB x)) h)

theorem firstRegs_length_reg (s : State) (x : RegIdx) : (s.firstRegs (x.val + 1)).length = x.val + 1 :=
  firstRegs_length s _ (by omega)

theorem firstRegs_getElem_reg (s : State) {x r : RegIdx} (hr : r ≤ x) (hl : r.val < (s.firstRegs (x.val + 1)).length) :
    (s.firstRegs (x.val + 1))[r.val] = s.readV r :=
  firstRegs_getElem s _ _ (Nat.lt_succ_of_le hr) (by omega) hl

/-- FX55 stores V[r] at the r-th target, unless the policy discards it. -/
theorem readByte_storedRegs {s : State} {x r : RegIdx} (hw : Memory.wf s.params.font s.mem = true) (hr : r ≤ x) :
    (s.memWrites s.i (s.firstRegs (x.val + 1))).readByte (s.atI r.val) =
      if (s.i.toNat + r.val) % 0x1000 < 0x200 ∧ s.params.lowWrite ≠ .store then s.readByte (s.atI r.val)
      else s.readV r := by
  have hlen := firstRegs_length_reg s x
  have hk : r.val < (s.firstRegs (x.val + 1)).length := by rw [hlen]; exact Nat.lt_succ_of_le hr
  rw [readByte_memWrites_atI hw (by omega) hk, firstRegs_getElem_reg s hr]

theorem exec_storeRegs_writes {s : State} (x : RegIdx) (h : s.params.lowWrite = .fault → s.NoLowTarget (x.val + 1)) :
    exec (.storeRegs x) s = .next (s.memWrites s.i (s.firstRegs (x.val + 1))).advance :=
  congrArg Host.Outcome.next (storeAtI_writes (encode (.storeRegs x)) (by rwa [firstRegs_length_reg]))

end Sys2Proof.Machine
end

section
/-! Family 20_memory.md: the byte order, the protection of the bytes below 0x200 and the fetch of stored bytes. -/

namespace Sys2Proof.Machine

/-- Settles O2: the bytes of a word give the word back, and the decoder reads each instruction's word back. -/
theorem decodeInvertsEncode : Obligations.DecodeInvertsEncode := by
  intro i rest
  simp only [wordBytes, List.cons_append, List.nil_append, decode, opcodeOf_wordBytes, decodeWord_encode]

/-- Settles O59: every part of a step leaves the bytes below 0x200 alone, a reset sets them back. -/
theorem fontIsNeverOverwritten : Obligations.FontIsNeverOverwritten :=
  fun _ _ hp hlow h => (lowProtected_stepParts.step ⟨hp, hlow⟩ h).intact

/-- Settles O29: the check before the store reports the lowest low target. -/
theorem lowStoreHaltsUnderFault : Obligations.LowStoreHaltsUnderFault := by
  intro x k s hp
  constructor
  · intro h
    exact congrArg Host.Outcome.next (storeAtI_halts (bytes := decimalDigits (s.readV x)) (encode (.ldB x)) hp h)
  · intro h
    exact congrArg Host.Outcome.next (storeAtI_halts (encode (.storeRegs x)) hp (by rwa [firstRegs_length_reg]))

/-- Settles O30: under policy discard the store never halts, and each target is written or left by its own address. -/
theorem lowBytesAreDiscarded : Obligations.LowBytesAreDiscarded := by
  intro x s hw hp
  have hfault : s.params.lowWrite ≠ .fault := by simp [hp]
  have hstore : s.params.lowWrite ≠ .store := by simp [hp]
  constructor
  · refine ⟨_, exec_ldB_writes x fun h => absurd h hfault, onlyStore_memWrites s rfl, memWrites_advance_pc _ _ _, ?_⟩
    intro k hk
    simp only [readByte_advance, readByte_storedDigits x hw hk, hstore, ne_eq, not_false_eq_true, and_true]
  · refine ⟨_, exec_storeRegs_writes x fun h => absurd h hfault, onlyStore_memWrites s (firstRegs_length_reg s x),
      memWrites_advance_pc _ _ _, ?_⟩
    intro r hr
    simp only [readByte_advance, readByte_storedRegs hw hr, hstore, ne_eq, not_false_eq_true, and_true]

/-- Settles O33: the next fetch reads the first two targets of the store. -/
theorem storedBytesAreFetched : Obligations.StoredBytesAreFetched := by
  intro x s hw hx hi hlow
  have hread : ∀ r : RegIdx, r ≤ x →
      (s.memWrites s.i (s.firstRegs (x.val + 1))).readByte (s.i + BitVec.ofNat 16 r.val) = s.readV r := by
    intro r hr
    have hhigh := hlow r.val (Nat.lt_succ_of_le hr)
    rw [← readByte_maskAddr]
    exact (readByte_storedRegs hw hr).trans (if_neg fun h => by omega)
  refine ⟨_, exec_storeRegs_writes x fun _ => hlow, ?_⟩
  rw [State.fetchBytes, memWrites_advance_pc, ← hi, readByte_advance, readByte_advance, ← hread 0 (Fin.zero_le x),
    ← hread 1 hx]
  simp

end Sys2Proof.Machine
end

section
/-! SUPPORT. A word is rebuilt from the fields the decoder reads, and its class depends on the fields its family dispatches on
(30_encoding.md R81 to R88). -/

namespace Sys2Proof

theorem decodeTableWord_eq (nbits w : Nat) : decodeTableWord nbits w = decodeWord (tableWord nbits w) := by
  simp only [decodeTableWord, wordBytes, decode, opcodeOf_wordBytes]
  cases decodeWord (tableWord nbits w) <;> rfl

section
variable (w : Word)

theorem regField_fieldX : regField (fieldX w) = w.extractLsb' 8 4 := by
  simp only [regField, fieldX, BitVec.ofNat_toNat, BitVec.setWidth_eq]

theorem regField_fieldY : regField (fieldY w) = w.extractLsb' 4 4 := by
  simp only [regField, fieldY, BitVec.ofNat_toNat, BitVec.setWidth_eq]

theorem regField_fieldN : regField (fieldN w) = w.extractLsb' 0 4 := by
  simp only [regField, fieldN, BitVec.ofNat_toNat, BitVec.setWidth_eq]

theorem fieldOp_eq_toNat : fieldOp w = w.toNat / 0x1000 := by
  have := w.isLt
  rw [fieldOp, BitVec.extractLsb'_toNat, Nat.shiftRight_eq_div_pow]
  omega

theorem fieldN_val : (fieldN w).val = w.toNat % 0x10 := BitVec.extractLsb'_toNat 0 4 w

theorem fieldNN_toNat : (fieldNN w).toNat = w.toNat % 0x100 := BitVec.extractLsb'_toNat 0 8 w

end

section
variable {w : Word} {op : BitVec 4}

theorem formatA_of_fields (hop : fieldOp w = op.toNat) : formatA op (fieldNNN w) = w := by
  have hop : w.extractLsb' 12 4 = op := BitVec.eq_of_toNat_eq hop
  rw [formatA, ← hop, fieldNNN, BitVec.extractLsb'_append_extractLsb'_eq_extractLsb' (by decide), BitVec.extractLsb'_eq_self]

theorem formatXK_of_fields {kk : Byte} (hop : fieldOp w = op.toNat) (hkk : fieldNN w = kk) :
    formatXK op (fieldX w) kk = w := by
  have hop : w.extractLsb' 12 4 = op := BitVec.eq_of_toNat_eq hop
  rw [formatXK, ← hop, regField_fieldX, ← hkk, fieldNN, BitVec.extractLsb'_append_extractLsb'_eq_extractLsb' (by decide),
    BitVec.extractLsb'_append_extractLsb'_eq_extractLsb' (by decide), BitVec.extractLsb'_eq_self]

theorem formatXY_of_fields {n : Fin 16} (hop : fieldOp w = op.toNat) (hn : fieldN w = n) :
    formatXY op (fieldX w) (fieldY w) n = w := by
  rw [formatXY_eq_formatXK]
  refine formatXK_of_fields hop ?_
  rw [← hn, regField_fieldY, regField_fieldN, BitVec.extractLsb'_append_extractLsb'_eq_extractLsb' (by decide), fieldNN]

end

section
variable {w : Word} {i : Instr}

/-- One test of a family's chain, and the rest of the chain. -/
theorem encode_of_ite {c : Prop} [Decidable c] {j : Instr} {o : Option Instr} (hj : c → encode j = w)
    (ho : o = some i → encode i = w) (h : (if c then some j else o) = some i) : encode i = w := by
  split at h
  case isTrue hc => exact Option.some.inj h ▸ hj hc
  case isFalse => exact ho h

theorem encode_of_decodeFamily0 : decodeFamily0 w = some i → encode i = w := by
  unfold decodeFamily0
  iterate 2 refine encode_of_ite Eq.symm ?_
  exact nofun

theorem encode_of_decodeFamily8 (hop : fieldOp w = 0x8) (h : decodeFamily8 w = some i) : encode i = w := by
  unfold decodeFamily8 at h
  split at h <;> cases h <;> exact formatXY_of_fields hop (Fin.ext ‹_›)

theorem encode_of_decodeFamilyE (hop : fieldOp w = 0xE) : decodeFamilyE w = some i → encode i = w := by
  unfold decodeFamilyE
  iterate 2 refine encode_of_ite (formatXK_of_fields hop) ?_
  exact nofun

theorem encode_of_decodeFamilyF (hop : fieldOp w = 0xF) : decodeFamilyF w = some i → encode i = w := by
  unfold decodeFamilyF
  iterate 9 refine encode_of_ite (formatXK_of_fields hop) ?_
  exact nofun

theorem encode_of_decodeLowZero {j : Instr} (hj : fieldN w = 0 → encode j = w) :
    decodeLowZero w j = some i → encode i = w :=
  encode_of_ite hj nofun

/-- Whatever the dispatch took, the format of its instruction rebuilds the word. -/
theorem encode_of_decodeWord (h : decodeWord w = some i) : encode i = w := by
  unfold decodeWord at h
  split at h
  case h_1 => exact encode_of_decodeFamily0 h
  case h_2 hop | h_3 hop | h_11 hop | h_12 hop => cases h; exact formatA_of_fields hop
  case h_4 hop | h_5 hop | h_7 hop | h_8 hop | h_13 hop => cases h; exact formatXK_of_fields hop rfl
  case h_6 hop | h_10 hop => exact encode_of_decodeLowZero (formatXY_of_fields hop) h
  case h_9 hop => exact encode_of_decodeFamily8 hop h
  case h_14 hop => cases h; exact formatXY_of_fields hop rfl
  case h_15 hop => exact encode_of_decodeFamilyE hop h
  case h_16 hop => exact encode_of_decodeFamilyF hop h
  case h_17 => cases h

end

section
variable (w : Word)

theorem decodeFamily0_eq_none : decodeFamily0 w = none ↔ w.toNat ≠ 0x00E0 ∧ w.toNat ≠ 0x00EE := by
  simp [decodeFamily0, ite_eq_iff, ← BitVec.toNat_inj]

theorem decodeLowZero_eq_none (i : Instr) : decodeLowZero w i = none ↔ (fieldN w).val ≠ 0 := by
  simp [decodeLowZero]

theorem decodeFamily8_eq_none :
    decodeFamily8 w = none ↔ (fieldN w).val ∈ [0x8, 0x9, 0xA, 0xB, 0xC, 0xD, 0xF] := by
  have hlt := (fieldN w).isLt
  rw [decodeFamily8]
  generalize (fieldN w).val = n at hlt
  interval_cases n <;> simp

theorem decodeFamilyE_eq_none : decodeFamilyE w = none ↔ (fieldNN w).toNat ∉ [0x9E, 0xA1] := by
  simp [decodeFamilyE, ite_eq_iff, ← BitVec.toNat_inj]

theorem decodeFamilyF_eq_none :
    decodeFamilyF w = none ↔ (fieldNN w).toNat ∉ [0x07, 0x0A, 0x15, 0x18, 0x1E, 0x29, 0x33, 0x55, 0x65] := by
  simp [decodeFamilyF, ite_eq_iff, ← BitVec.toNat_inj]

/-- The unknown words, by the fields that each family dispatches on (R88). -/
theorem decodeWord_eq_none : decodeWord w = none ↔
    (fieldOp w = 0x0 ∧ w.toNat ≠ 0x00E0 ∧ w.toNat ≠ 0x00EE) ∨
    ((fieldOp w = 0x5 ∨ fieldOp w = 0x9) ∧ (fieldN w).val ≠ 0) ∨
    (fieldOp w = 0x8 ∧ (fieldN w).val ∈ [0x8, 0x9, 0xA, 0xB, 0xC, 0xD, 0xF]) ∨
    (fieldOp w = 0xE ∧ (fieldNN w).toNat ∉ [0x9E, 0xA1]) ∨
    (fieldOp w = 0xF ∧ (fieldNN w).toNat ∉ [0x07, 0x0A, 0x15, 0x18, 0x1E, 0x29, 0x33, 0x55, 0x65]) := by
  have hlt : fieldOp w < 0x10 := (w.extractLsb' 12 4).isLt
  rw [decodeWord]
  generalize fieldOp w = op at hlt
  split
  case h_1 => simp [decodeFamily0_eq_none]
  case h_6 | h_10 => simp [decodeLowZero_eq_none]
  case h_9 => simp [decodeFamily8_eq_none]
  case h_15 => simp [decodeFamilyE_eq_none]
  case h_16 => simp [decodeFamilyF_eq_none]
  case h_17 => interval_cases op <;> contradiction
  all_goals simp

end

/-- The decoder accepts words alike when they agree on the fields that their family dispatches on. -/
theorem decodeWord_isSome_congr {w v : Word} (hop : fieldOp w = fieldOp v) (h0 : fieldOp v = 0x0 → w = v)
    (hn : (fieldOp v = 0x5 ∨ fieldOp v = 0x9) ∨ fieldOp v = 0x8 → fieldN w = fieldN v)
    (hnn : fieldOp v = 0xE ∨ fieldOp v = 0xF → fieldNN w = fieldNN v) :
    (decodeWord w).isSome = (decodeWord v).isSome := by
  rw [Bool.eq_iff_iff, Option.isSome_iff_ne_none, Option.isSome_iff_ne_none, ne_eq, ne_eq, decodeWord_eq_none,
    decodeWord_eq_none, hop]
  exact not_congr <|
    or_congr (and_congr_right fun hv => by rw [h0 hv]) <|
    or_congr (and_congr_right fun hv => by rw [hn (.inl hv)]) <|
    or_congr (and_congr_right fun hv => by rw [hn (.inr hv)]) <|
    or_congr (and_congr_right fun hv => by rw [hnn (.inl hv)]) (and_congr_right fun hv => by rw [hnn (.inr hv)])

section
variable {r : OpcodeRow} {w : Word}

/-- A word that fits a row has the row's value in a field that the row's mask covers. -/
theorem extract_of_fits {start len : Nat} (hm : r.mask.extractLsb' start len = BitVec.allOnes len) (h : r.fits w) :
    w.extractLsb' start len = r.val.extractLsb' start len := by
  have hval : w &&& r.mask = r.val := by simpa [OpcodeRow.fits] using h
  rw [← hval, BitVec.extractLsb'_and, hm, BitVec.and_allOnes]

/-- Each row's own bits are accepted, and its mask covers the fields its family dispatches on (R85 to R87). -/
theorem opcodeTable_masks : ∀ r ∈ opcodeTable, (decodeWord r.val).isSome ∧
    r.mask.extractLsb' 12 4 = BitVec.allOnes 4 ∧ (fieldOp r.val = 0x0 → r.mask.extractLsb' 0 16 = BitVec.allOnes 16) ∧
    ((fieldOp r.val = 0x5 ∨ fieldOp r.val = 0x9) ∨ fieldOp r.val = 0x8 → r.mask.extractLsb' 0 4 = BitVec.allOnes 4) ∧
    (fieldOp r.val = 0xE ∨ fieldOp r.val = 0xF → r.mask.extractLsb' 0 8 = BitVec.allOnes 8) := by decide

theorem decodeWord_isSome_of_fits (hr : r ∈ opcodeTable) (h : r.fits w) : (decodeWord w).isSome := by
  obtain ⟨hsome, hop, h0, hn, hnn⟩ := opcodeTable_masks r hr
  rwa [decodeWord_isSome_congr (v := r.val)]
  · exact congrArg BitVec.toNat (extract_of_fits hop h)
  · intro hv
    simpa only [BitVec.extractLsb'_eq_self] using extract_of_fits (h0 hv) h
  · intro hv
    simp only [fieldN, extract_of_fits (hn hv) h]
  · exact fun hv => extract_of_fits (hnn hv) h

end

open Laws.TableRow in
theorem wellFormedWord_encode (i : Instr) : wellFormedWord (encode i) = true :=
  match i with
  | .cls => cls | .ret => ret | .jp nnn => jp nnn | .call nnn => call nnn
  | .seImm x kk => seImm x kk | .sneImm x kk => sneImm x kk | .seReg x y => seReg x y
  | .ldImm x kk => ldImm x kk | .addImm x kk => addImm x kk | .ldReg x y => ldReg x y
  | .orReg x y => orReg x y | .andReg x y => andReg x y | .xorReg x y => xorReg x y
  | .addReg x y => addReg x y | .subReg x y => subReg x y | .shrReg x y => shrReg x y
  | .subnReg x y => subnReg x y | .shlReg x y => shlReg x y | .sneReg x y => sneReg x y
  | .ldI nnn => ldI nnn | .jpV0 nnn => jpV0 nnn | .rnd x kk => rnd x kk | .drw x y n => drw x y n
  | .skp x => skp x | .sknp x => sknp x | .ldVxDt x => ldVxDt x | .ldVxK x => ldVxK x
  | .ldDtVx x => ldDtVx x | .ldStVx x => ldStVx x | .addI x => addI x | .ldF x => ldF x
  | .ldB x => ldB x | .storeRegs x => storeRegs x | .loadRegs x => loadRegs x

end Sys2Proof
end

section
/-! Family 30_encoding.md: the sample words, both directions of the encoding, and the decoder against the opcode table. -/

namespace Sys2Proof

/-- Settles O1: a table word is decoded as its opcode, and the twelve opcodes are read off. -/
theorem sampleWordsDecode : Obligations.SampleWordsDecode := by
  unfold Obligations.SampleWordsDecode
  simp only [decodeTableWord_eq]
  decide

/-- Settles O3: the fields of the decoded instruction are the word's. -/
theorem encodeInvertsDecode : Obligations.EncodeInvertsDecode := fun _ _ => encode_of_decodeWord

/-- Settles O4: family by family, the words its dispatch leaves out. -/
theorem unknownWordsAreExactlyListed : Obligations.UnknownWordsAreExactlyListed := by
  intro w
  have hfamily0 : w.toNat ≤ 0x0FFF ↔ w.toNat / 0x1000 = 0x0 := by omega
  rw [hfamily0, decodeWord_eq_none, fieldOp_eq_toNat, fieldN_val, fieldNN_toNat]

/-- Settles O5: a decoded word is the word of its instruction, which stands in the table; and a word that fits a row is accepted
as the row's own bits are. -/
theorem decoderAgreesWithOpcodeTable : Obligations.DecoderAgreesWithOpcodeTable := by
  intro w
  rw [Bool.eq_iff_iff]
  constructor
  · intro h
    obtain ⟨i, hi⟩ := Option.isSome_iff_exists.mp h
    exact encode_of_decodeWord hi ▸ wellFormedWord_encode i
  · intro h
    obtain ⟨r, hr, hfits⟩ := List.any_eq_true.mp h
    exact decodeWord_isSome_of_fits hr hfits

end Sys2Proof
end

section
/-! SUPPORT. What a cycle, a tick and a display read do, by the executor's state: running an instruction, halted, or waiting with
no key edge (40_cycle.md R101, R107, R108). -/

namespace Sys2Proof.Machine

/-- Running: the decoded instruction is executed on the sampled inputs, and then keys_prev takes the keys. -/
theorem cycle_of_running {s : State} {i : Instr} {rest : List Byte} (keys : Keys) (rnd : Option Byte)
    (hrun : s.executor = .running) (hdec : decode s.fetchBytes = .instr i rest) :
    cycle s keys rnd = thenState (exec i (s.sample keys rnd)) State.endCycle := by
  have hone : runOne (s.sample keys rnd) = exec i (s.sample keys rnd) := by
    unfold runOne
    rw [show (s.sample keys rnd).fetchBytes = s.fetchBytes from rfl, hdec]
  unfold cycle
  rw [hrun]
  exact congrArg (thenState · State.endCycle) hone

section
variable {s : State} (h : s.isHalted = true)
include h

theorem cycle_of_halted (keys : Keys) (rnd : Option Byte) : cycle s keys rnd = .next s := by
  unfold State.isHalted at h
  unfold cycle
  split at h
  case h_1 f hf => rw [hf]
  case h_2 | h_3 => cases h

theorem tick_of_halted : s.tick = s := if_pos h

theorem dispRead_of_halted : s.dispRead = s := if_pos h

end

/-- Keys that are held as in the previous cycle have no rising edge. -/
theorem lowestEdge_self (keys : Keys) : lowestEdge keys keys = none := by
  refine lowestEdge_none.mpr fun k hk => ?_
  obtain ⟨_, hnow, hprev⟩ := hk
  rw [hnow] at hprev
  cases hprev

section
variable {s : State} {x : RegIdx} (hx : s.executor = .awaitingKey x)
include hx

theorem isHalted_of_awaitingKey : s.isHalted = false := by
  unfold State.isHalted; rw [hx]

theorem cycle_of_awaitingKey (keys : Keys) (rnd : Option Byte) :
    cycle s keys rnd = .next ((s.sample keys rnd).awaitKey x).endCycle := by
  unfold cycle; rw [hx]

/-- A waiting cycle whose keys are the held ones changes the inputs only (R107). -/
theorem cycle_of_awaitingKey_held (rnd : Option Byte) :
    cycle s s.keysPrev rnd = .next (s.sample s.keysPrev rnd) := by
  rw [cycle_of_awaitingKey hx, awaitKey_none x (lowestEdge_self s.keysPrev)]
  rfl

theorem tick_of_awaitingKey : s.tick = { s with dt := countDown s.dt, st := countDown s.st } :=
  if_neg (by rw [isHalted_of_awaitingKey hx]; exact Bool.false_ne_true)

theorem dispRead_of_awaitingKey : s.dispRead = { s with dirty := false } :=
  if_neg (by rw [isHalted_of_awaitingKey hx]; exact Bool.false_ne_true)

end

end Sys2Proof.Machine
end

section
/-! SUPPORT. The wait of FX0A under any schedule of requests that bring no key edge (45_keys_timers.md R218, R225, R227). -/

namespace Sys2Proof.Machine

/-- The request leaves a wait standing: a tick, a display read, or a cycle with the held keys. -/
def HostStep.KeepsWait (held : Keys) (h : HostStep) : Prop := h = .tick ∨ h = .dispRead ∨ ∃ rnd, h = .cycle held rnd

/-- From `s` on, only what a standing wait lets change has changed. -/
def State.StillWaits (s t : State) : Prop :=
  t = { s with
    dt := t.dt, st := t.st, dirty := t.dirty, schedule := t.schedule, keys := t.keys, rnd := t.rnd, justReset := t.justReset }

theorem State.StillWaits.trans {s t u : State} (hst : s.StillWaits t) (htu : t.StillWaits u) : s.StillWaits u := by
  unfold State.StillWaits at *
  rw [htu, hst]

theorem step_keepsWait {s : State} {x : RegIdx} {h : HostStep} {later : List HostStep} (hx : s.executor = .awaitingKey x)
    (hs : s.schedule = h :: later) (hh : h.KeepsWait s.keysPrev) :
    ∃ t, step s = .next t ∧ t.schedule = later ∧ s.StillWaits t ∧
      t.dt.toNat = s.dt.toNat - [h].count .tick ∧ t.st.toNat = s.st.toNat - [h].count .tick := by
  have hx' : (s.after later).executor = .awaitingKey x := hx
  rw [step_cons hs]
  obtain rfl | rfl | ⟨rnd, rfl⟩ := hh
  · exact ⟨_, congrArg Host.Outcome.next (tick_of_awaitingKey hx'), rfl, rfl, countDown_toNat s.dt, countDown_toNat s.st⟩
  · exact ⟨_, congrArg Host.Outcome.next (dispRead_of_awaitingKey hx'), rfl, rfl, rfl, rfl⟩
  · exact ⟨_, cycle_of_awaitingKey_held hx' rnd, rfl, rfl, rfl, rfl⟩

/-- Induction over the schedule: the wait stands after each request, and the ticks add up. -/
theorem run_keepsWait {s : State} {x : RegIdx} {reqs : List HostStep} (hx : s.executor = .awaitingKey x)
    (hs : s.schedule = reqs) (hreqs : ∀ h ∈ reqs, h.KeepsWait s.keysPrev) :
    ∃ t, Sys2Proof.core.run reqs.length s = .next t ∧ t.schedule = [] ∧ s.StillWaits t ∧
      t.dt.toNat = s.dt.toNat - reqs.count .tick ∧ t.st.toNat = s.st.toNat - reqs.count .tick := by
  induction reqs generalizing s with
  | nil => exact ⟨s, rfl, hs, rfl, rfl, rfl⟩
  | cons h later ih =>
    obtain ⟨hh, hlater⟩ := List.forall_mem_cons.mp hreqs
    obtain ⟨t, hstep, hsched, hwait, hdt, hst⟩ := step_keepsWait hx hs hh
    have htx : t.executor = .awaitingKey x := by rw [hwait]; exact hx
    have htk : t.keysPrev = s.keysPrev := by rw [hwait]
    obtain ⟨u, hrun, hdone, hwait', hdt', hst'⟩ := ih htx hsched (htk ▸ hlater)
    have hcount : (h :: later).count .tick = [h].count .tick + later.count .tick := List.count_append (l₁ := [h])
    refine ⟨u, (core_run_succ _ hstep).trans hrun, hdone, hwait.trans hwait', by omega, by omega⟩

end Sys2Proof.Machine
end

section
/-! SUPPORT. The part of the state that an instruction writes beyond V, pc, the draw count, the executor and the fault channel:
each of the 34 writes at most one (40_cycle.md R106). -/

namespace Sys2Proof

/-- The parts of the state that only some instructions write. -/
inductive StatePart where
  | memory
  | display
  | stack
  | index
  | delay
  | sound
deriving DecidableEq

/-- The one such part that an instruction writes. -/
def Instr.writes : Instr → Option StatePart
  | .ldB _ | .storeRegs _ => some .memory
  | .cls | .drw _ _ _ => some .display
  | .ret | .call _ => some .stack
  | .ldI _ | .addI _ | .ldF _ => some .index
  | .ldDtVx _ => some .delay
  | .ldStVx _ => some .sound
  | _ => none

section
variable {i : Instr}

theorem writes_ne_memory : i.writes ≠ some .memory ↔ ∀ x, i ≠ .ldB x ∧ i ≠ .storeRegs x := by
  cases i <;> simp [Instr.writes]

theorem writes_ne_display : i.writes ≠ some .display ↔ i ≠ .cls ∧ ∀ x y n, i ≠ .drw x y n := by
  cases i <;> simp [Instr.writes]

theorem writes_ne_stack : i.writes ≠ some .stack ↔ i ≠ .ret ∧ ∀ nnn, i ≠ .call nnn := by
  cases i <;> simp [Instr.writes]

theorem writes_ne_index : i.writes ≠ some .index ↔ (∀ nnn, i ≠ .ldI nnn) ∧ ∀ x, i ≠ .addI x ∧ i ≠ .ldF x := by
  cases i <;> simp [Instr.writes]

theorem writes_ne_delay : i.writes ≠ some .delay ↔ ∀ x, i ≠ .ldDtVx x := by
  cases i <;> simp [Instr.writes]

theorem writes_ne_sound : i.writes ≠ some .sound ↔ ∀ x, i ≠ .ldStVx x := by
  cases i <;> simp [Instr.writes]

end

end Sys2Proof
end

section
/-! SUPPORT. The frame of an instruction, and where a store at I leaves pc. -/

namespace Sys2Proof.Machine

/-- Whatever an instruction does, only the part it writes and the parts every instruction may touch can change. -/
theorem exec_frame {i : Instr} {s t : State} (h : exec i s = .next t) : t = { s with
    v := t.v, pc := t.pc, draws := t.draws, executor := t.executor, faults := t.faults
    mem := if i.writes = some .memory then t.mem else s.mem
    disp := if i.writes = some .display then t.disp else s.disp
    dirty := if i.writes = some .display then t.dirty else s.dirty
    sp := if i.writes = some .stack then t.sp else s.sp
    stack := if i.writes = some .stack then t.stack else s.stack
    i := if i.writes = some .index then t.i else s.i
    dt := if i.writes = some .delay then t.dt else s.dt
    st := if i.writes = some .sound then t.st else s.st } := by
  cases i with
  | cls | jp | jpV0 | ldImm | addImm | ldReg | orReg | andReg | xorReg | addReg | subReg | shrReg | subnReg | shlReg | rnd
  | drw | ldI | addI | ldF | ldVxDt | ldDtVx | ldStVx | loadRegs => cases h; rfl
  | seImm | sneImm | seReg | sneReg => cases h; rw [skipIf_eq]; rfl
  | ldB | storeRegs => cases h; rw [storeAtI_frame]; rfl
  | ret =>
    simp only [exec, execRet] at h
    split at h <;> cases h
    case h_1 hpop => rw [popReturn_frame hpop]; rfl
    case h_2 => rfl
  | call nnn =>
    simp only [exec, execCall] at h
    split at h <;> cases h
    case h_1 hpush => rw [pushReturn_frame hpush]; rfl
    case h_2 => rfl
  | skp x | sknp x =>
    simp only [exec, execSkp, execSknp] at h
    split at h <;> cases h
    case h_1 => rw [skipIf_eq]; rfl
    case h_2 => rfl
  | ldVxK x =>
    simp only [exec, execLdVxK] at h
    split at h <;> cases h <;> rfl

section
variable {i : Instr} {s t : State} (h : exec i s = .next t)
include h

theorem mem_of_exec (hw : i.writes ≠ some .memory) : t.mem = s.mem := by
  rw [exec_frame h]; exact if_neg hw

theorem disp_of_exec (hw : i.writes ≠ some .display) : t.disp = s.disp ∧ t.dirty = s.dirty := by
  rw [exec_frame h]; exact ⟨if_neg hw, if_neg hw⟩

theorem stack_of_exec (hw : i.writes ≠ some .stack) : t.sp = s.sp ∧ t.stack = s.stack := by
  rw [exec_frame h]; exact ⟨if_neg hw, if_neg hw⟩

theorem i_of_exec (hw : i.writes ≠ some .index) : t.i = s.i := by
  rw [exec_frame h]; exact if_neg hw

theorem dt_of_exec (hw : i.writes ≠ some .delay) : t.dt = s.dt := by
  rw [exec_frame h]; exact if_neg hw

theorem st_of_exec (hw : i.writes ≠ some .sound) : t.st = s.st := by
  rw [exec_frame h]; exact if_neg hw

end

/-- A store at I that does not halt moves pc past the instruction. -/
theorem storeAtI_pc {s : State} {op : Word} {bytes : List Byte} (h : (s.storeAtI op bytes).isHalted = false) :
    (s.storeAtI op bytes).pc = s.next2 := by
  obtain ⟨a, _, _, heq⟩ | ⟨_, heq⟩ := storeAtI_cases s op bytes
  · rw [heq] at h
    cases h
  · rw [heq, memWrites_advance_pc]

end Sys2Proof.Machine
end

section
/-! Family 40_cycle.md: what one cycle does, what every instruction does to pc and leaves alone, the frozen core and the wait. -/

namespace Sys2Proof.Machine

/-- Settles O43: the wait stands along the schedule, by induction over it. -/
theorem waitSurvivesInterleaving : Obligations.WaitSurvivesInterleaving := by
  intro s x hx hreqs
  obtain ⟨t, hrun, hdone, hwait, htimers⟩ := run_keepsWait hx rfl hreqs
  refine ⟨t, hrun, hdone, ?_, ?_, ?_, ?_, ?_, ?_, ?_, ?_, ?_, htimers⟩
  · rw [hwait, hx]
  all_goals rw [hwait]

/-- Settles O49: each of the six effects is a next state. -/
theorem everyInstructionAnswersNext : Obligations.EveryInstructionAnswersNext := by
  intro i s
  obtain ⟨t, ht, _⟩ := exec_effect i s
  exact ⟨t, ht⟩

/-- Settles O50: a store advances unless it halts, and each of the others ends in an advance. -/
theorem otherInstructionsAdvancePc : Obligations.OtherInstructionsAdvancePc := by
  intro i s t h hrun hret hjump hskipImm hskipReg hkey
  rw [← next2_toNat]
  congr 1
  cases i with
  | cls | ldImm | addImm | ldReg | orReg | andReg | xorReg | addReg | subReg | shrReg | subnReg | shlReg | ldI | rnd | drw
  | ldVxDt | ldDtVx | ldStVx | addI | ldF | loadRegs => cases h; rfl
  | ldB | storeRegs => cases h; exact storeAtI_pc hrun
  | ret => exact absurd rfl hret
  | jp nnn => exact absurd rfl (hjump nnn).1
  | call nnn => exact absurd rfl (hjump nnn).2.1
  | jpV0 nnn => exact absurd rfl (hjump nnn).2.2
  | seImm x kk => exact absurd rfl (hskipImm x kk).1
  | sneImm x kk => exact absurd rfl (hskipImm x kk).2
  | seReg x y => exact absurd rfl (hskipReg x y).1
  | sneReg x y => exact absurd rfl (hskipReg x y).2
  | skp x => exact absurd rfl (hkey x).1
  | sknp x => exact absurd rfl (hkey x).2.1
  | ldVxK x => exact absurd rfl (hkey x).2.2

/-- Settles O51: the frame of an instruction, with the parts it does not write read off. -/
theorem instructionsKeepOtherState : Obligations.InstructionsKeepOtherState := by
  intro i s t h
  have hframe := exec_frame h
  refine ⟨fun hw => readByte_congr (mem_of_exec h (writes_ne_memory.mpr hw)) (by rw [hframe]),
    fun hcls hdrw => disp_of_exec h (writes_ne_display.mpr ⟨hcls, hdrw⟩),
    fun hret hcall => stack_of_exec h (writes_ne_stack.mpr ⟨hret, hcall⟩),
    fun hldI haddI => i_of_exec h (writes_ne_index.mpr ⟨hldI, haddI⟩),
    fun hw => dt_of_exec h (writes_ne_delay.mpr hw), fun hw => st_of_exec h (writes_ne_sound.mpr hw), ?_⟩
  rw [hframe]
  exact ⟨rfl, rfl, rfl, rfl, rfl, rfl, rfl, rfl⟩

/-- Settles O6: the head of the schedule, or the keys as they stand, is the cycle of a running core. -/
theorem cycleRunsDecodedInstruction : Obligations.CycleRunsDecodedInstruction := by
  intro s keys rnd later i rest hrun hdec
  constructor
  · intro hsched
    rw [step_cons hsched]
    exact cycle_of_running (s := s.after later) keys rnd hrun hdec
  · intro hsched
    have hs : s.stepTaken = s.after [] := by rw [State.after, ← hsched]; rfl
    rw [step_nil hsched, hostStep, hs]
    exact cycle_of_running (s := s.after []) s.keys none hrun hdec

/-- Settles O53: a halted core keeps its state under each of the three requests. -/
theorem haltedCoreIsFrozen : Obligations.HaltedCoreIsFrozen := by
  intro s h later hhalt hsched hreset hload
  have hhalt' : (s.after later).isHalted = true := hhalt
  rw [step_cons hsched]
  cases h with
  | cycle keys rnd => exact cycle_of_halted hhalt' keys rnd
  | tick => exact congrArg Host.Outcome.next (tick_of_halted hhalt')
  | dispRead => exact congrArg Host.Outcome.next (dispRead_of_halted hhalt')
  | reset => exact absurd rfl hreset
  | load src => exact absurd rfl (hload src)

end Sys2Proof.Machine
end

section
/-! SUPPORT. The targets of jumps, calls and skips, and a call and a return by the depth of the stack (41_control_flow.md). -/

namespace Sys2Proof.Machine

@[simp] theorem addrOf_toNat (nnn : Addr12) : (addrOf nnn).toNat = nnn.toNat :=
  BitVec.toNat_setWidth_of_le (by decide)

@[simp] theorem widen_toNat (b : Byte) : (widen b).toNat = b.toNat :=
  BitVec.toNat_setWidth_of_le (by decide)

/-- An address field is below 0x1000, so pc takes it whole. -/
@[simp] theorem maskAddr_addrOf (nnn : Addr12) : maskAddr (addrOf nnn) = addrOf nnn :=
  maskAddr_of_lt _ (by rw [addrOf_toNat]; exact nnn.isLt)

/-- BNNN's sum of at most 0xFFF + 0xFF stays within 16 bits, so the one wrap is the mask's. -/
theorem maskAddr_addrOf_add_widen (nnn : Addr12) (b : Byte) :
    (maskAddr (addrOf nnn + widen b)).toNat = (nnn.toNat + b.toNat) % 0x1000 := by
  have hsum : nnn.toNat + b.toNat < 2 ^ 16 := by omega
  rw [maskAddr_toNat, BitVec.toNat_add, addrOf_toNat, widen_toNat, Nat.mod_eq_of_lt hsum]

section
variable {s t : State} (nnn : Addr12)

theorem exec_call_of_push (h : s.pushReturn = some t) : exec (.call nnn) s = .next (t.setPc (addrOf nnn)) := by
  rw [exec, execCall, h]

theorem exec_call_of_full (h : s.sp.val = 16) :
    exec (.call nnn) s = .next (s.raiseFatal .stackOverflow (encode (.call nnn)) 16) := by
  rw [exec, execCall, pushReturn_full h, h]
  rfl

theorem exec_ret_of_pop (h : s.popReturn = some t) : exec .ret s = .next t := by
  rw [exec, execRet, h]

theorem exec_ret_of_empty (h : s.sp.val = 0) :
    exec .ret s = .next (s.raiseFatal .stackUnderflow (encode .ret) 0) := by
  rw [exec, execRet, popReturn_empty h]

end

/-- A skip on equal bytes, as a choice of pc. -/
theorem skipIf_beq (s : State) (a b : Byte) :
    s.skipIf (a == b) = { s with pc := if a.toNat = b.toNat then s.next4 else s.next2 } := by
  simp only [skipIf_eq, beq_iff_eq, BitVec.toNat_inj]

/-- A skip on different bytes, as a choice of pc. -/
theorem skipIf_bne (s : State) (a b : Byte) :
    s.skipIf (a != b) = { s with pc := if a.toNat = b.toNat then s.next2 else s.next4 } := by
  simp only [skipIf_eq, bne_iff_ne, ne_eq, ite_not, BitVec.toNat_inj]

end Sys2Proof.Machine
end

section
/-! Family 41_control_flow.md: jumps, calls, returns and skips. -/

namespace Sys2Proof.Machine

/-- Settles O9: the address field is below 0x1000 and becomes pc as it is. -/
theorem jumpSetsPc : Obligations.JumpSetsPc := by
  intro nnn s
  refine ⟨s.setPc (addrOf nnn), rfl, ?_, rfl⟩
  rw [setPc_pc, maskAddr_addrOf, addrOf_toNat]

/-- Settles O10: the sum wraps at 0x1000 only. -/
theorem jumpWithOffsetAddsV0 : Obligations.JumpWithOffsetAddsV0 := fun nnn s =>
  ⟨s.setPc (addrOf nnn + widen (s.readV 0)), rfl, maskAddr_addrOf_add_widen nnn (s.readV 0), rfl⟩

/-- Settles O11: below depth 16 the push succeeds, and the jump that follows moves pc only. -/
theorem callPushesReturnAddress : Obligations.CallPushesReturnAddress := by
  intro nnn s hsp
  obtain ⟨t, hpush, htsp, hstack, hframe⟩ := pushReturn_some hsp
  refine ⟨t.setPc (addrOf nnn), exec_call_of_push nnn hpush, ?_, htsp, ?_, ?_, ?_⟩
  · rw [setPc_pc, maskAddr_addrOf, addrOf_toNat]
  · rw [setPc_stack, hstack, Vector.getElem?_set_self hsp]
  · intro k hk
    rw [setPc_stack, hstack, Vector.getElem?_set_ne hsp hk.symm]
  · rw [hframe]
    rfl

/-- Settles O12: above an empty stack the pop succeeds, and an entry below 0x1000 becomes pc as it is. -/
theorem returnPopsStack : Obligations.ReturnPopsStack := by
  intro s a hsp hentry ha
  obtain ⟨t, hpop, htsp, hpc, hframe⟩ := popReturn_some hsp hentry
  exact ⟨t, exec_ret_of_pop hpop, hpc.trans (maskAddr_of_lt a ha), htsp, hframe⟩

/-- Settles O13: a full stack takes no push and an empty one gives no pop. -/
theorem stackLimitsHalt : Obligations.StackLimitsHalt :=
  fun nnn _ => ⟨exec_call_of_full nnn, exec_ret_of_empty⟩

/-- Settles O14: the call's entry lies on top of the stack that `u` kept, so the return pops it (O11, O12). -/
theorem returnResumesAfterCall : Obligations.ReturnResumesAfterCall := by
  intro nnn s hsp
  obtain ⟨t, hcall, _, htsp, hentry, _, _⟩ := callPushesReturnAddress nnn s hsp
  refine ⟨t, hcall, fun u husp hustack => ?_⟩
  have hdepth : u.sp.val = s.sp.val + 1 := by rw [husp, htsp]
  have htop : u.stack[u.sp.val - 1]? = some s.next2 := by rw [hustack, hdepth, Nat.add_sub_cancel, hentry]
  obtain ⟨w, hret, hpc, hwsp, hframe⟩ := returnPopsStack u s.next2 (by omega) htop (maskAddr_lt _)
  refine ⟨w, hret, ?_, Fin.ext (by omega), ?_, ?_⟩
  · rw [hpc, next2_toNat]
  all_goals rw [hframe]

/-- Settles O15: both are skips that compare V[X] with NN. -/
theorem immediateSkipsCompare : Obligations.ImmediateSkipsCompare := fun x kk s =>
  ⟨congrArg Host.Outcome.next (skipIf_beq s (s.readV x) kk), congrArg Host.Outcome.next (skipIf_bne s (s.readV x) kk)⟩

/-- Settles O16: both are skips that compare V[X] with V[Y]. -/
theorem registerSkipsCompare : Obligations.RegisterSkipsCompare := fun x y s =>
  ⟨congrArg Host.Outcome.next (skipIf_beq s (s.readV x) (s.readV y)),
    congrArg Host.Outcome.next (skipIf_bne s (s.readV x) (s.readV y))⟩

end Sys2Proof.Machine
end

section
/-! SUPPORT. The values of the ALU's results and flags as numbers, and what an instruction does that writes one register, or one
register and VF (42_alu.md R140). -/

namespace Sys2Proof.Machine

section
variable (a b : Byte)

theorem flagByte_toNat (c : Bool) : (flagByte c).toNat = if c then 1 else 0 := by
  cases c <;> rfl

theorem addResult_toNat : (addResult a b).toNat = (a.toNat + b.toNat) % 256 := BitVec.toNat_ofNat _ 8

theorem carryFlag_toNat : (carryFlag a b).toNat = if a.toNat + b.toNat > 255 then 1 else 0 := by
  simp only [carryFlag, flagByte_toNat, decide_eq_true_eq]

/-- Adding 256 first keeps the difference of two bytes from being cut off at 0 and does not change it modulo 256. -/
theorem subResult_toNat : (subResult a b).toNat = (a.toNat + 256 - b.toNat) % 256 := by
  rw [subResult, BitVec.toNat_ofInt]
  omega

theorem noBorrowFlag_toNat : (noBorrowFlag a b).toNat = if a.toNat ≥ b.toNat then 1 else 0 := by
  simp only [noBorrowFlag, flagByte_toNat, decide_eq_true_eq]

theorem shrResult_toNat : (shrResult a).toNat = a.toNat / 2 := by
  rw [shrResult, BitVec.toNat_ushiftRight, Nat.shiftRight_eq_div_pow, Nat.pow_one]

theorem byte_and_one_toNat : (a &&& 1).toNat = a.toNat % 2 := (BitVec.toNat_and ..).trans (Nat.and_one_is_mod a.toNat)

theorem shrFlag_toNat : (shrFlag a).toNat = a.toNat % 2 := byte_and_one_toNat a

theorem shlResult_toNat : (shlResult a).toNat = a.toNat * 2 % 256 := by
  rw [shlResult, BitVec.toNat_shiftLeft, Nat.shiftLeft_eq, Nat.pow_one]

/-- Above bit 7 there is nothing, so the byte's quotient by 128 is the bit. -/
theorem shlFlag_toNat : (shlFlag a).toNat = a.toNat / 128 := by
  rw [shlFlag, byte_and_one_toNat, BitVec.toNat_ushiftRight, Nat.shiftRight_eq_div_pow]
  omega

end

theorem advances_writeV (s : State) (x : RegIdx) (b : Byte) : s.Advances (s.writeV x b).advance :=
  advances_advance (s.writeV x b)

theorem advances_writeVFlag (s : State) (x : RegIdx) (b f : Byte) : s.Advances (s.writeVFlag x b f).advance :=
  advances_advance (s.writeVFlag x b f)

section
variable {i : Instr} {s : State} {x : RegIdx} {b f : Byte}

/-- A register write and an advance: V[x] is the value written, and only V[x] and pc change. -/
theorem exec_of_writeV (h : exec i s = .next (s.writeV x b).advance) :
    ∃ t, exec i s = .next t ∧ t.readV x = b ∧ s.OnlyRegs t (· = x) ∧ s.Advances t :=
  ⟨_, h, readV_writeV_self s x b, onlyRegs_writeV s x b, advances_writeV s x b⟩

/-- A flag instruction's writes and an advance, by their values: V[x] is the result unless x is F, VF is the flag in any case,
and only V[x], VF and pc change. -/
theorem exec_of_writeVFlag {result flag : Nat} (h : exec i s = .next (s.writeVFlag x b f).advance)
    (hresult : b.toNat = result) (hflag : f.toNat = flag) :
    ∃ t, exec i s = .next t ∧ (x ≠ vf → (t.readV x).toNat = result) ∧ (t.readV vf).toNat = flag ∧
      s.OnlyRegs t (fun r => r = x ∨ r = vf) ∧ s.Advances t := by
  refine ⟨_, h, fun hx => ?_, ?_, onlyRegs_writeVFlag s x b f, advances_writeVFlag s x b f⟩
  · rw [readV_advance, readV_writeVFlag_self b f hx, hresult]
  · rw [readV_advance, readV_writeVFlag_vf, hflag]

/-- The bit by bit form of `exec_of_writeV`, in the order of the statement on the logic instructions. -/
theorem exec_bits_of_writeV {bit : Nat → Bool} (h : exec i s = .next (s.writeV x b).advance)
    (hbit : ∀ k, b.getLsbD k = bit k) :
    ∃ t, exec i s = .next t ∧ s.OnlyRegs t (· = x) ∧ s.Advances t ∧ ∀ k, k < 8 → (t.readV x).getLsbD k = bit k := by
  obtain ⟨t, ht, hx, hframe, hpc⟩ := exec_of_writeV h
  exact ⟨t, ht, hframe, hpc, fun k _ => by rw [hx, hbit]⟩

end

theorem drawByte_of_host {s : State} {r : Byte} (h : s.rnd = some r) : s.drawByte = r := by
  rw [State.drawByte, h]

theorem drawByte_of_free {s : State} (h : s.rnd = none) : s.drawByte = Config.freeByte s.draws := by
  rw [State.drawByte, h]

end Sys2Proof.Machine
end

section
/-! Family 42_alu.md: loads, arithmetic, logic, shifts and the random byte. -/

namespace Sys2Proof.Machine

/-- Settles O20: VF is written after V[X], so the carry stays where X is F. -/
theorem addSetsCarry : Obligations.AddSetsCarry := fun x y s =>
  exec_of_writeVFlag rfl (addResult_toNat (s.readV x) (s.readV y)) (carryFlag_toNat (s.readV x) (s.readV y))

/-- Settles O21: the minuend is V[X]. -/
theorem subSetsNoBorrow : Obligations.SubSetsNoBorrow := fun x y s =>
  exec_of_writeVFlag rfl (subResult_toNat (s.readV x) (s.readV y)) (noBorrowFlag_toNat (s.readV x) (s.readV y))

/-- Settles O22: the minuend is V[Y]. -/
theorem subnSetsNoBorrow : Obligations.SubnSetsNoBorrow := fun x y s =>
  exec_of_writeVFlag rfl (subResult_toNat (s.readV y) (s.readV x)) (noBorrowFlag_toNat (s.readV y) (s.readV x))

/-- Settles O23: result and flag are functions of V[X] alone. -/
theorem shiftRightSetsOldBit0 : Obligations.ShiftRightSetsOldBit0 := fun x _ s =>
  exec_of_writeVFlag rfl (shrResult_toNat (s.readV x)) (shrFlag_toNat (s.readV x))

/-- Settles O24: result and flag are functions of V[X] alone. -/
theorem shiftLeftSetsOldBit7 : Obligations.ShiftLeftSetsOldBit7 := fun x _ s =>
  exec_of_writeVFlag rfl (shlResult_toNat (s.readV x)) (shlFlag_toNat (s.readV x))

/-- Settles O17: both write one register, with NN and with V[Y]. -/
theorem loadsWriteRegister : Obligations.LoadsWriteRegister := fun _ _ _ _ =>
  ⟨exec_of_writeV rfl, exec_of_writeV rfl⟩

/-- Settles O18: one register is written, with the sum modulo 256. -/
theorem addImmediateWraps : Obligations.AddImmediateWraps := by
  intro x kk s
  obtain ⟨t, ht, hx, hframe, hpc⟩ := exec_of_writeV (i := .addImm x kk) (s := s) rfl
  exact ⟨t, ht, by rw [hx, addResult_toNat], hframe, hpc⟩

/-- Settles O19: one register is written, with the bitwise operation on the old bytes. -/
theorem logicIsBitwise : Obligations.LogicIsBitwise := fun _ _ _ =>
  ⟨exec_bits_of_writeV rfl fun _ => BitVec.getLsbD_or, exec_bits_of_writeV rfl fun _ => BitVec.getLsbD_and,
    exec_bits_of_writeV rfl fun _ => BitVec.getLsbD_xor⟩

/-- Settles O25: r is the draw, the host's byte or the free value at the draw counter. -/
theorem randomByteIsMasked : Obligations.RandomByteIsMasked := by
  intro x kk s
  refine ⟨s.drawByte, (s.writeV x (s.drawByte &&& kk)).countDraw.advance, rfl, ?_, drawByte_of_free, rfl, rfl, ?_, ?_, ?_, rfl⟩
  · exact fun r hr => drawByte_of_host hr
  · intro k _
    rw [readV_advance, readV_countDraw, readV_writeV_self, BitVec.getLsbD_and]
  · exact fun r hr => readV_writeV_other (s.drawByte &&& kk) hr
  · exact fun _ => rfl

end Sys2Proof.Machine
end

section
/-! SUPPORT. What an instruction does that writes I, the stores at I where no byte is refused, and the register block load
(43_index_memory.md R170, R177, R182). -/

namespace Sys2Proof.Machine

/-- A glyph address is at most 0x050 + 255 * 5, so I takes it whole. -/
theorem maskAddr_glyphAddr (b : Byte) : (maskAddr (glyphAddr b)).toNat = 0x050 + b.toNat * 5 := by
  have hb := b.isLt
  rw [maskAddr_toNat, glyphAddr, BitVec.toNat_add, BitVec.toNat_mul, widen_toNat, show (0x050 : Word).toNat = 0x050 from rfl,
    show (5 : Word).toNat = 5 from rfl]
  omega

/-- Adding a byte to I: the mask undoes what the 16-bit sum may have wrapped. -/
theorem maskAddr_add_widen (a : Word) (b : Byte) : (maskAddr (a + widen b)).toNat = (a.toNat + b.toNat) % 0x1000 := by
  rw [maskAddr_toNat, BitVec.toNat_add, widen_toNat]
  omega

/-- A write of I and an advance: I is the masked address, and only I and pc change. -/
theorem exec_of_writeI {i : Instr} {s : State} {a : Word} {n : Nat} (h : exec i s = .next (s.writeI a).advance)
    (ha : (maskAddr a).toNat = n) :
    ∃ t, exec i s = .next t ∧ t.i.toNat = n ∧ s.Advances t ∧ t = { s with i := t.i, pc := t.pc } :=
  ⟨_, h, ha, advances_advance (s.writeI a), rfl⟩

/-- LOW_WRITE_POLICY refuses none of the `n` bytes of a store at I: no target lies below 0x200, or the policy is store
(20_memory.md R67). -/
def State.RefusesNone (s : State) (n : Nat) : Prop := s.NoLowTarget n ∨ s.params.lowWrite = .store

section
variable {s : State} {n k : Nat} (h : s.RefusesNone n)
include h

theorem State.RefusesNone.noLowTarget_of_fault (hp : s.params.lowWrite = .fault) : s.NoLowTarget n :=
  h.resolve_right (by simp [hp])

theorem State.RefusesNone.not_discarded (hk : k < n) :
    ¬ ((s.i.toNat + k) % 0x1000 < 0x200 ∧ s.params.lowWrite ≠ .store) := by
  rintro ⟨hlow, hpolicy⟩
  obtain hhigh | hstore := h
  · exact absurd hlow (Nat.not_lt.mpr (hhigh k hk))
  · exact hpolicy hstore

end

section
variable (s : State) (x : RegIdx)

theorem exec_loadRegs : exec (.loadRegs x) s = .next { s with v := s.loadedV (x.val + 1) }.advance := rfl

/-- The block load, register by register: V0 to V[X] come from the bytes at I, the others stay. -/
theorem readV_loadedRegs (r : RegIdx) :
    { s with v := s.loadedV (x.val + 1) }.advance.readV r = if r ≤ x then s.readByte (s.atI r.val) else s.readV r := by
  have hle : r.val < x.val + 1 ↔ r ≤ x := Nat.lt_succ_iff
  have hread := loadedV_getElem s (x.val + 1) r.val (by omega) r.isLt
  rwa [if_congr hle rfl rfl, ← readByte_maskAddr] at hread

end

end Sys2Proof.Machine
end

section
/-! Family 43_index_memory.md: I, the stores at I and the block load. -/

namespace Sys2Proof.Machine

/-- Settles O27: with no byte refused the store does not halt, and each target holds its digit. -/
theorem decimalDigitsAreStored : Obligations.DecimalDigitsAreStored := by
  intro x s hw (hnone : s.RefusesNone 3)
  have hdigit : ∀ k, k < 3 → ((s.memWrites s.i (decimalDigits (s.readV x))).advance.readByte (s.atI k)).toNat =
      (s.readV x).toNat / 10 ^ (2 - k) % 10 := fun k hk =>
    (readByte_storedDigits x hw hk).trans (if_neg (hnone.not_discarded hk))
  have hbyte := (s.readV x).isLt
  refine ⟨_, exec_ldB_writes x hnone.noLowTarget_of_fault, ?_, hdigit 1 (by decide), ?_, onlyStore_memWrites s rfl,
    memWrites_advance_pc _ _ _⟩
  · rw [hdigit 0 (by decide)]; omega
  · rw [hdigit 2 (by decide)]; omega

/-- Settles O28: with no byte refused the store does not halt, and each target holds its register. -/
theorem registerBlockIsStored : Obligations.RegisterBlockIsStored := by
  intro x s hw (hnone : s.RefusesNone (x.val + 1))
  refine ⟨_, exec_storeRegs_writes x hnone.noLowTarget_of_fault, fun r hr => ?_,
    onlyStore_memWrites s (firstRegs_length_reg s x), memWrites_advance_pc _ _ _⟩
  exact (readByte_storedRegs hw hr).trans (if_neg (hnone.not_discarded (Nat.lt_succ_of_le hr)))

/-- Settles O31: the load writes V and pc only, and V register by register. -/
theorem registerBlockIsLoaded : Obligations.RegisterBlockIsLoaded := fun x s =>
  ⟨_, exec_loadRegs s x, fun r hr => (readV_loadedRegs s x r).trans (if_pos hr),
    ⟨fun r hr => (readV_loadedRegs s x r).trans (if_neg hr), fun _ => rfl, rfl⟩,
    advances_advance { s with v := s.loadedV (x.val + 1) }⟩

/-- Settles O32: the store leaves I, so the load reads the targets that the store wrote (O28, O31). -/
theorem storeThenLoadRestoresRegisters : Obligations.StoreThenLoadRestoresRegisters := by
  intro x s hw hnone
  obtain ⟨t, hstore, hstored, ⟨_, hframe⟩, _⟩ := registerBlockIsStored x s hw hnone
  have hi : t.i = s.i := by rw [hframe]
  refine ⟨t, hstore, fun v => ?_⟩
  obtain ⟨u, hload, hloaded, ⟨hkept, _, huframe⟩, _⟩ := registerBlockIsLoaded x { t with v := v }
  refine ⟨u, hload, by rw [huframe, hi], fun r => ?_⟩
  by_cases hr : r ≤ x
  · have htarget : { t with v := v }.atI r.val = s.atI r.val := by rw [State.atI, State.atI, hi]
    rw [if_pos hr, hloaded r hr, htarget]
    exact hstored r hr
  · rw [if_neg hr, hkept r hr]
    rfl

/-- Settles O26: each writes I, with an address below 0x1000 or a sum that wraps there. -/
theorem indexIsSetAddedAndPointed : Obligations.IndexIsSetAddedAndPointed := fun nnn x s =>
  ⟨exec_of_writeI rfl (by rw [maskAddr_addrOf, addrOf_toNat]), exec_of_writeI rfl (maskAddr_add_widen s.i (s.readV x)),
    exec_of_writeI rfl (maskAddr_glyphAddr (s.readV x))⟩

end Sys2Proof.Machine
end

section
/-! SUPPORT. The blit of DXYN by the cells its sprite covers: which it inverts, when it collides, and on what of the state the cells
depend (44_display.md R192 to R195). -/

namespace Sys2Proof.Machine

section
variable {s t : State} {x y : RegIdx} {n i : Nat}

theorem spriteCovers_lt (h : s.SpriteCovers x y n i) : i < 2048 := by
  obtain ⟨k, c, _, _, _, rfl⟩ := h
  omega

/-- The covered cells depend on V[x], V[y], I and the bytes of memory only. -/
theorem spriteCovers_congr (hx : t.readV x = s.readV x) (hy : t.readV y = s.readV y) (hi : t.i = s.i)
    (hmem : ∀ a, t.readByte a = s.readByte a) : t.SpriteCovers x y n i ↔ s.SpriteCovers x y n i := by
  simp only [State.SpriteCovers, hx, hy, hi, hmem]

/-- The pixels lie on distinct cells (R195), so the blit inverts the covered cells, and it collides where one was set before. -/
theorem blitSprite_spec (s : State) (x y : RegIdx) (hn : n ≤ 32) :
    (∀ i, i < 2048 → (dispCell (s.blitSprite x y n).disp i ≠ dispCell s.disp i ↔ s.SpriteCovers x y n i)) ∧
    ((s.blitSprite x y n).collide = true ↔ ∃ i, s.SpriteCovers x y n i ∧ dispCell s.disp i = true) := by
  simp only [← mem_spritePixels, State.blitSprite, blitRows_eq]
  obtain ⟨hcell, hcollide⟩ := foldl_blitCell _ { disp := s.disp, collide := false } (fun _ => spritePixels_lt)
    (spritePixels_nodup s.spriteRow ((s.readV x).toNat % 64) ((s.readV y).toNat % 32) n hn)
  refine ⟨fun i hi => ?_, by simpa using hcollide⟩
  rw [hcell i hi]
  cases dispCell s.disp i <;> simp

end

end Sys2Proof.Machine
end

section
/-! Family 44_display.md: clearing the display and drawing a sprite. -/

namespace Sys2Proof.Machine

/-- Settles O34: the display written is the cleared one. -/
theorem clearBlanksDisplay : Obligations.ClearBlanksDisplay := fun s =>
  ⟨(s.writeDisp dispClear).advance, rfl, fun i _ => dispCell_dispClear i, rfl, rfl, rfl⟩

/-- Settles O35: the display is the blit's, and VF, written last, is its collision. -/
theorem drawInvertsCoveredCells : Obligations.DrawInvertsCoveredCells := by
  intro x y n s
  obtain ⟨hcell, hcollide⟩ := blitSprite_spec s x y (n := n.val) (by omega)
  refine ⟨_, rfl, hcell, ?_, ?_, fun r hr => readV_writeV_other _ hr, fun _ => rfl, rfl, rfl, rfl⟩
  · rintro ⟨i, _, hcov, hset⟩
    rw [readV_advance, readV_writeV_self, hcollide.mpr ⟨i, hcov, hset⟩]
    rfl
  · intro hclear
    have hnone : (s.blitSprite x y n.val).collide = false := by
      rw [← Bool.not_eq_true, hcollide]
      rintro ⟨i, hcov, hset⟩
      simp [hclear i (spriteCovers_lt hcov) hcov] at hset
    rw [readV_advance, readV_writeV_self, hnone]
    rfl

/-- Settles O36: the first draw keeps X, Y, I and memory, so the second covers the same cells and inverts them back (O35). -/
theorem drawingTwiceErases : Obligations.DrawingTwiceErases := by
  intro x y n s hx hy
  obtain ⟨t, hdraw, hcell, _, hclear, hreg, hmem, _, _, hframe⟩ := drawInvertsCoveredCells x y n s
  obtain ⟨u, hredraw, hcell', hset', _⟩ := drawInvertsCoveredCells x y n t
  have hi : t.i = s.i := by rw [hframe]
  have hcov (i : Nat) : t.SpriteCovers x y n.val i ↔ s.SpriteCovers x y n.val i :=
    spriteCovers_congr (hreg x hx) (hreg y hy) hi hmem
  refine ⟨t, u, hdraw, hredraw, disp_ext fun i hlt => ?_, fun hblank ⟨i, hi⟩ => ⟨hclear fun j hj _ => hblank j hj, ?_⟩⟩
  · have hcell'' := (hcell' i hlt).trans (hcov i)
    by_cases hc : s.SpriteCovers x y n.val i
    · rw [Bool.eq_not.mpr (hcell''.mpr hc), Bool.eq_not.mpr ((hcell i hlt).mpr hc), Bool.not_not]
    · rw [not_ne_iff.mp (mt hcell''.mp hc), not_ne_iff.mp (mt (hcell i hlt).mp hc)]
  · have hlt := spriteCovers_lt hi
    have hinverted := (hcell i hlt).mpr hi
    rw [hblank i hlt, Bool.ne_false_iff] at hinverted
    exact hset' ⟨i, hlt, (hcov i).mpr hi, hinverted⟩

end Sys2Proof.Machine
end

section
/-! SUPPORT. The key tests by the level that the key index policy gives, and the key that completes FX0A (45_keys_timers.md R210 to
R217). -/

namespace Sys2Proof.Machine

section
variable {s : State} {k : Byte}

theorem keyLevel_of_le (h : k.toNat ≤ 15) : s.keyLevel k = some (s.keys.getLsbD k.toNat) := if_pos h

section
variable (h : 15 < k.toNat)
include h

theorem keyLevel_of_fault (hp : s.params.keyIndex = .fault) : s.keyLevel k = none := by
  rw [State.keyLevel, if_neg (Nat.not_le.mpr h), hp]

/-- The low nibble is the index modulo 16. -/
theorem keyLevel_of_lowNibble (hp : s.params.keyIndex = .lowNibble) :
    s.keyLevel k = some (s.keys.getLsbD (k.toNat % 16)) := by
  have hnibble : (k &&& 0xF).toNat = k.toNat % 16 :=
    (BitVec.toNat_and ..).trans (Nat.and_two_pow_sub_one_eq_mod k.toNat 4)
  rw [State.keyLevel, if_neg (Nat.not_le.mpr h), hp, ← hnibble]

theorem keyLevel_of_notPressed (hp : s.params.keyIndex = .notPressed) : s.keyLevel k = some false := by
  rw [State.keyLevel, if_neg (Nat.not_le.mpr h), hp]

end

end

section
variable {s : State} {x : RegIdx} {pressed : Bool}

theorem exec_skp_of_level (h : s.keyLevel (s.readV x) = some pressed) :
    exec (.skp x) s = .next { s with pc := if pressed then s.next4 else s.next2 } := by
  rw [exec, execSkp, h, ← skipIf_eq]

theorem exec_sknp_of_level (h : s.keyLevel (s.readV x) = some pressed) :
    exec (.sknp x) s = .next { s with pc := if pressed then s.next2 else s.next4 } := by
  rw [exec, execSknp, h]
  cases pressed <;> rfl

theorem exec_skp_of_no_level (h : s.keyLevel (s.readV x) = none) :
    exec (.skp x) s = .next (s.raiseFatal .keyRange (encode (.skp x)) (widen (s.readV x))) := by
  rw [exec, execSkp, h]

theorem exec_sknp_of_no_level (h : s.keyLevel (s.readV x) = none) :
    exec (.sknp x) s = .next (s.raiseFatal .keyRange (encode (.sknp x)) (widen (s.readV x))) := by
  rw [exec, execSknp, h]

end

section
variable {s : State} {k : Nat} (x : RegIdx)

theorem exec_ldVxK_of_edge (h : LowestKeyEdge s.keys s.keysPrev k) : exec (.ldVxK x) s = .next (s.takeKey x k) := by
  rw [exec, execLdVxK, lowestEdge_some.mpr h]

theorem exec_ldVxK_of_no_edge (h : ∀ k, ¬ KeyEdge s.keys s.keysPrev k) :
    exec (.ldVxK x) s = .next { s with executor := .awaitingKey x } := by
  rw [exec, execLdVxK, lowestEdge_none.mpr h]

/-- A key with an edge is one of 16, so V[x] holds its whole index. -/
theorem readV_takeKey_self (s : State) {keys prev : Keys} (h : LowestKeyEdge keys prev k) :
    ((s.takeKey x k).readV x).toNat = k := by
  have hk := lowestEdge_lt (lowestEdge_some.mpr h)
  rw [State.takeKey, readV_advance, readV_writeV_self, BitVec.toNat_ofNat]
  omega

end

end Sys2Proof.Machine
end

section
/-! SUPPORT. The buzzer, a tick of a core that is not halted, and what a step can do to the delay timer (45_keys_timers.md R221 to
R228). -/

namespace Sys2Proof.Machine

theorem buzzer_iff (s : State) : s.buzzer = true ↔ s.st ≠ 0 := bne_iff_ne

/-- A tick leaves something of a timer that was above 1. -/
theorem countDown_ne_zero (t : Byte) : countDown t ≠ 0 ↔ t.toNat > 1 := by
  rw [BitVec.toNat_ne, countDown_toNat, show (0 : Byte).toNat = 0 from rfl]
  omega

theorem tick_of_not_halted {s : State} (h : s.isHalted = false) :
    s.tick = { s with dt := countDown s.dt, st := countDown s.st } := if_neg (Bool.not_eq_true _ ▸ h)

theorem step_tick {s : State} {later : List HostStep} (hsched : s.schedule = .tick :: later) (hrun : s.isHalted = false) :
    step s = .next { s.after later with dt := countDown s.dt, st := countDown s.st } := by
  have hrun' : (s.after later).isHalted = false := hrun
  rw [step_cons hsched]
  exact congrArg Host.Outcome.next (tick_of_not_halted hrun')

theorem awaitKey_dt (s : State) (x : RegIdx) : (s.awaitKey x).dt = s.dt := by
  unfold State.awaitKey; split <;> rfl

theorem dispRead_dt (s : State) : s.dispRead.dt = s.dt := by
  unfold State.dispRead; split <;> rfl

theorem doLoad_dt (s : State) (src : LoadSource) : (s.doLoad src).dt = s.dt := by
  obtain ⟨bytes, _, heq⟩ | ⟨cause, len, heq⟩ := doLoad_cases s src <;> rw [heq]
  · rw [pokeBytes_eq]
  · rfl

/-- Of the instructions only FX15 writes the delay timer. -/
theorem exec_dt {i : Instr} {s t : State} (h : exec i s = .next t) :
    t.dt = s.dt ∨ ∃ x, i = .ldDtVx x ∧ t.dt = s.readV x := by
  by_cases hi : ∃ x, i = .ldDtVx x
  · obtain ⟨x, rfl⟩ := hi
    cases h
    exact .inr ⟨x, rfl, rfl⟩
  · exact .inl (dt_of_exec h (writes_ne_delay.mpr (not_exists.mp hi)))

/-- The core runs an FX15 in the cycle from `s` that leaves the delay timer at `b`. -/
def State.RunsDelayWrite (s : State) (b : Byte) : Prop :=
  ∃ x rest, s.executor = .running ∧ decode s.fetchBytes = .instr (.ldDtVx x) rest ∧ b = s.readV x

/-- Over a cycle only an FX15 that is run changes the delay timer. -/
theorem cycle_dt {s t : State} {keys : Keys} {rnd : Option Byte} (h : cycle s keys rnd = .next t) :
    t.dt = s.dt ∨ s.RunsDelayWrite t.dt := by
  obtain ⟨_, hc⟩ | ⟨x, _, hc⟩ | ⟨i, rest, hrun, hdec, hc⟩ | ⟨w, _, _, _, hc⟩ := cycle_cases s keys rnd <;> rw [hc] at h
  · cases h; exact .inl rfl
  · cases h; exact .inl (awaitKey_dt (s.sample keys rnd) x)
  · obtain ⟨u, hu, _⟩ := exec_effect i (s.sample keys rnd)
    rw [hu] at h
    cases h
    obtain hsame | ⟨x, rfl, hx⟩ := exec_dt hu
    · exact .inl hsame
    · exact .inr ⟨x, rest, hrun, hdec, hx⟩
  · cases h; exact .inl rfl

/-- What each of the host's requests can do to the delay timer. -/
theorem hostStep_dt {s t : State} {req : HostStep} (h : hostStep req s = .next t) :
    t.dt = s.dt ∨ (req = .tick ∧ t.dt.toNat = s.dt.toNat - 1) ∨ (req = .reset ∧ t.dt = 0) ∨ s.RunsDelayWrite t.dt := by
  cases req with
  | cycle keys rnd => exact (cycle_dt (s := s.stepTaken) h).imp_right fun hw => .inr (.inr hw)
  | tick =>
    cases h
    cases hh : s.stepTaken.isHalted with
    | true => rw [tick_of_halted hh]; exact .inl rfl
    | false => rw [tick_of_not_halted hh]; exact .inr (.inl ⟨rfl, countDown_toNat s.dt⟩)
  | dispRead => cases h; exact .inl (dispRead_dt s.stepTaken)
  | reset => cases h; exact .inr (.inr (.inl ⟨rfl, rfl⟩))
  | load src =>
    simp only [hostStep] at h
    split at h
    · cases h; exact .inl (doLoad_dt s.stepTaken src)
    · cases h

end Sys2Proof.Machine
end

section
/-! Family 45_keys_timers.md: key tests, the wait for a key, the timers and the ticks. -/

namespace Sys2Proof.Machine

/-- Settles O42: the cycle is the key test on the sampled keys, which takes the lowest edge or leaves the wait. -/
theorem awaitedKeyResumes : Obligations.AwaitedKeyResumes := by
  intro s x keys rnd later hx hsched
  have hx' : (s.after later).executor = .awaitingKey x := hx
  have hstep : step s = .next (((s.after later).sample keys rnd).awaitKey x).endCycle :=
    (step_cons hsched).trans (cycle_of_awaitingKey hx' keys rnd)
  rw [hstep]
  constructor
  · intro k hk
    rw [awaitKey_some x (lowestEdge_some.mpr hk)]
    exact ⟨_, rfl, readV_takeKey_self x ((s.after later).sample keys rnd) hk, fun _ hr => readV_writeV_other _ hr, rfl, rfl⟩
  · intro hnone
    rw [awaitKey_none x (lowestEdge_none.mpr hnone)]
    rfl

/-- Settles O46: both timers count down, and the buzzer is read off the new ST. -/
theorem tickCountsDown : Obligations.TickCountsDown := fun s _ hsched hrun =>
  ⟨_, step_tick hsched hrun, countDown_toNat s.dt, countDown_toNat s.st, (buzzer_iff _).trans (countDown_ne_zero s.st), rfl⟩

/-- Settles O47: by induction over the ticks, each as in O46. -/
theorem ticksReachZeroAndStay : Obligations.TicksReachZeroAndStay := by
  intro n
  induction n with
  | zero => exact fun s later hsched _ => ⟨s, rfl, rfl, rfl, hsched⟩
  | succ n ih =>
    intro s later hsched hrun
    rw [List.replicate_succ, List.cons_append] at hsched
    obtain ⟨t, hstep, hdt, hst, _, hframe⟩ := tickCountsDown s (List.replicate n .tick ++ later) hsched hrun
    have htsched : t.schedule = List.replicate n .tick ++ later := by rw [hframe]; rfl
    have htrun : t.isHalted = false := by rw [hframe]; exact hrun
    obtain ⟨u, hrest, hdt', hst', hlater⟩ := ih t later htsched htrun
    exact ⟨u, (core_run_succ n hstep).trans hrest, by omega, by omega, hlater⟩

/-- Settles O48: the step is a cycle of the keys as they stand, or the request at the head of the schedule. -/
theorem delayTimerChangesOnlyByTickResetOrWrite : Obligations.DelayTimerChangesOnlyByTickResetOrWrite := by
  intro s t h
  cases hsched : s.schedule with
  | nil =>
    rw [step_nil hsched] at h
    exact (cycle_dt (s := s.stepTaken) h).imp_right fun hw => .inr (.inr hw)
  | cons req later =>
    rw [step_cons hsched] at h
    obtain hsame | ⟨rfl, hdt⟩ | ⟨rfl, hdt⟩ | hwrite := hostStep_dt h
    · exact .inl hsame
    · exact .inr (.inl ⟨later, rfl, hdt⟩)
    · exact .inr (.inr (.inl ⟨later, rfl, hdt⟩))
    · exact .inr (.inr (.inr hwrite))

/-- Settles O38: up to 15 the level is the key's own. -/
theorem keySkipsTestLevel : Obligations.KeySkipsTestLevel := fun _ _ h =>
  ⟨exec_skp_of_level (keyLevel_of_le h), exec_sknp_of_level (keyLevel_of_le h)⟩

/-- Settles O39: above 15 the level is the policy's. -/
theorem keyIndexAboveFifteen : Obligations.KeyIndexAboveFifteen := by
  intro x s h
  refine ⟨fun hp => ?_, fun hp => ?_, fun hp => ?_⟩
  · exact ⟨exec_skp_of_no_level (keyLevel_of_fault h hp), exec_sknp_of_no_level (keyLevel_of_fault h hp)⟩
  · exact ⟨exec_skp_of_level (keyLevel_of_lowNibble h hp), exec_sknp_of_level (keyLevel_of_lowNibble h hp)⟩
  · exact ⟨exec_skp_of_level (keyLevel_of_notPressed h hp), exec_sknp_of_level (keyLevel_of_notPressed h hp)⟩

/-- Settles O40: the key taken is the lowest with an edge, and it is written to one register. -/
theorem waitStoresLowestPressedKey : Obligations.WaitStoresLowestPressedKey := fun x k s h =>
  ⟨s.takeKey x k, exec_ldVxK_of_edge x h, readV_takeKey_self x s h, onlyRegs_writeV s x (BitVec.ofNat 8 k), rfl⟩

/-- Settles O41: without an edge there is no key to take. -/
theorem waitHoldsPc : Obligations.WaitHoldsPc := fun x _ h => exec_ldVxK_of_no_edge x h

/-- Settles O44: one register is written, with DT. -/
theorem delayTimerIsRead : Obligations.DelayTimerIsRead := fun x s =>
  ⟨(s.writeV x s.dt).advance, rfl, readV_writeV_self s x s.dt, onlyRegs_writeV s x s.dt, rfl⟩

/-- Settles O45: each writes one timer and advances, and the buzzer is read off the new ST. -/
theorem timersAreWritten : Obligations.TimersAreWritten := fun x s =>
  ⟨rfl, { s with st := s.readV x }.advance, rfl, buzzer_iff _, rfl⟩

end Sys2Proof.Machine
end

section
/-! SUPPORT. The opcode of two bytes as a number, and the decoding of two bytes that make no instruction word (30_encoding.md R88). -/

namespace Sys2Proof

/-- The opcode of two bytes as a number: big-endian (20_memory.md R65). -/
theorem opcodeOf_toNat (hi lo : Byte) : (opcodeOf hi lo).toNat = hi.toNat * 256 + lo.toNat := by
  have hfit : hi.toNat <<< 8 < 2 ^ 16 := by omega
  rw [opcodeOf, BitVec.toNat_or, BitVec.toNat_shiftLeft, BitVec.toNat_setWidth_of_le (by decide),
    BitVec.toNat_setWidth_of_le (by decide), Nat.mod_eq_of_lt hfit, ← Nat.shiftLeft_add_eq_or_of_lt lo.isLt,
    Nat.shiftLeft_eq]

theorem decode_of_decodeWord_none {hi lo : Byte} (rest : List Byte) (h : decodeWord (opcodeOf hi lo) = none) :
    decode (hi :: lo :: rest) = .unknownWord (opcodeOf hi lo) rest := by
  rw [decode, h]

end Sys2Proof
end

section
/-! SUPPORT. The cycle of a running core that fetches an unknown word (60_exceptions.md R243). -/

namespace Sys2Proof.Machine

/-- Running: an unknown word is recorded and skipped on the sampled inputs, and then keys_prev takes the keys. -/
theorem cycle_of_unknownWord {s : State} {w : Word} {rest : List Byte} (keys : Keys) (rnd : Option Byte)
    (hrun : s.executor = .running) (hdec : decode s.fetchBytes = .unknownWord w rest) :
    cycle s keys rnd = .next ((s.sample keys rnd).raiseDecode w).endCycle := by
  have hone : runOne (s.sample keys rnd) = .next ((s.sample keys rnd).raiseDecode w) := by
    unfold runOne
    rw [show (s.sample keys rnd).fetchBytes = s.fetchBytes from rfl, hdec]
  unfold cycle
  rw [hrun]
  exact congrArg (thenState · State.endCycle) hone

end Sys2Proof.Machine
end

section
/-! SUPPORT. The one fatal fault that an instruction can raise, and that it raises that one precisely or none (60_exceptions.md R240,
R246, R252). -/

namespace Sys2Proof.Machine

/-- The code of the fatal fault that an instruction can raise, for the six that can raise one (60_exceptions.md R240). -/
def fatalCode : Instr → Option FaultCode
  | .call _ => some .stackOverflow
  | .ret => some .stackUnderflow
  | .ldB _ | .storeRegs _ => some .protection
  | .skp _ | .sknp _ => some .keyRange
  | _ => none

/-- No instruction raises an unknown word's fault or a load's. -/
theorem code_ne_of_fatalCode {i : Instr} {code : FaultCode} (h : fatalCode i = some code) :
    code ≠ .decode ∧ code ≠ .load := by
  unfold fatalCode at h
  split at h <;> cases h <;> decide

/-- `t` follows `s` without a fault: the channel is as it was and the core is not halted. -/
def State.NoFault (s t : State) : Prop := t.faults = s.faults ∧ t.isHalted = false

section
variable {s : State} (hrun : s.isHalted = false)
include hrun

theorem noFault_skipIf (c : Bool) : s.NoFault (s.skipIf c) := by
  rw [skipIf_eq]; exact ⟨rfl, hrun⟩

theorem noFault_pushReturn {t : State} (target : Word) (h : s.pushReturn = some t) : s.NoFault (t.setPc target) := by
  rw [pushReturn_frame h]; exact ⟨rfl, hrun⟩

theorem noFault_popReturn {t : State} (h : s.popReturn = some t) : s.NoFault t := by
  rw [popReturn_frame h]; exact ⟨rfl, hrun⟩

theorem storeAtI_noFault_or_protection (op : Word) (bytes : List Byte) :
    s.NoFault (s.storeAtI op bytes) ∨ ∃ a, s.storeAtI op bytes = s.raiseFatal .protection op a := by
  obtain ⟨a, _, _, heq⟩ | ⟨_, heq⟩ := storeAtI_cases s op bytes
  · exact .inr ⟨a, heq⟩
  · rw [heq, memWrites_eq]; exact .inl ⟨rfl, hrun⟩

/-- An instruction raises no fault, or the one it can raise, under its own opcode and before it has changed anything. -/
theorem exec_noFault_or_fatal {i : Instr} {t : State} (h : exec i s = .next t) :
    s.NoFault t ∨ ∃ code info, fatalCode i = some code ∧ t = s.raiseFatal code (encode i) info := by
  cases i with
  | cls | jp | jpV0 | ldImm | addImm | ldReg | orReg | andReg | xorReg | addReg | subReg | shrReg | subnReg | shlReg | rnd
  | drw | ldI | addI | ldF | ldVxDt | ldDtVx | ldStVx | loadRegs => cases h; exact .inl ⟨rfl, hrun⟩
  | seImm | sneImm | seReg | sneReg => cases h; exact .inl (noFault_skipIf hrun _)
  | ldB | storeRegs =>
    cases h
    exact (storeAtI_noFault_or_protection hrun _ _).imp_right fun ⟨a, heq⟩ => ⟨.protection, a, rfl, heq⟩
  | ret =>
    simp only [exec, execRet] at h
    split at h <;> cases h
    case h_1 hpop => exact .inl (noFault_popReturn hrun hpop)
    case h_2 => exact .inr ⟨_, _, rfl, rfl⟩
  | call nnn =>
    simp only [exec, execCall] at h
    split at h <;> cases h
    case h_1 hpush => exact .inl (noFault_pushReturn hrun (addrOf nnn) hpush)
    case h_2 => exact .inr ⟨_, _, rfl, rfl⟩
  | skp x | sknp x =>
    simp only [exec, execSkp, execSknp] at h
    split at h <;> cases h
    case h_1 => exact .inl (noFault_skipIf hrun _)
    case h_2 => exact .inr ⟨_, _, rfl, rfl⟩
  | ldVxK x =>
    simp only [exec, execLdVxK] at h
    split at h <;> cases h
    case h_1 => exact .inl ⟨rfl, hrun⟩
    case h_2 => exact .inl ⟨rfl, rfl⟩

end

end Sys2Proof.Machine
end

section
/-! Family 60_exceptions.md: the fatal faults of instructions, and the unknown word. -/

namespace Sys2Proof.Machine

/-- Settles O52: the fatal fault an instruction can raise is a halt with a record of its pc and opcode. -/
theorem instructionFaultsArePrecise : Obligations.InstructionFaultsArePrecise := by
  intro i s t hexec h
  have hrun : s.isHalted = false := by unfold State.isHalted; rw [hexec]
  obtain hnone | ⟨code, info, hcode, rfl⟩ := exec_noFault_or_fatal hrun h
  · exact .inl hnone
  · exact .inr ⟨_, rfl, rfl, rfl, code_ne_of_fatalCode hcode⟩

/-- Settles O7: the two bytes at pc make the word `w`, and its cycle records it and advances. -/
theorem unknownWordIsRecordedAndSkipped : Obligations.UnknownWordIsRecordedAndSkipped := by
  intro s keys rnd later w hrun hsched hw hunknown
  have hop : opcodeOf (s.readByte s.pc) (s.readByte (s.pc + 1)) = w :=
    BitVec.eq_of_toNat_eq ((opcodeOf_toNat _ _).trans hw.symm)
  have hdec : decode (s.after later).fetchBytes = .unknownWord w [] := by
    rw [← hop] at hunknown ⊢
    exact decode_of_decodeWord_none [] hunknown
  rw [step_cons hsched]
  exact cycle_of_unknownWord (s := s.after later) keys rnd hrun hdec

end Sys2Proof.Machine
end

section
/-! SUPPORT. The reset state (70_reset_and_hazards.md R270), what a load does by its source (R273, R274), and the steps of a reset,
a load and a cycle. -/

namespace Sys2Proof.Machine

/-- Row r of glyph g in the reset contents of memory (20_memory.md R69). -/
theorem unlistedByte_glyph (font : Font) {g r : Nat} (hg : g < 16) (hr : r < 5) :
    unlistedByte font (0x050 + 5 * g + r) = font[g][r] := by
  have hin : 0x050 ≤ 0x050 + 5 * g + r ∧ 0x050 + 5 * g + r < 0x0A0 := by omega
  have hglyph : (0x050 + 5 * g + r - 0x050) / 5 = g := by omega
  have hrow : (0x050 + 5 * g + r - 0x050) % 5 = r := by omega
  simp only [unlistedByte, hin, and_self, dite_true, hglyph, hrow]

/-- Outside the font the reset contents are zero (R69). -/
theorem unlistedByte_outside_font (font : Font) {a : Nat} (ha : a < 0x050 ∨ 0x0A0 ≤ a) : unlistedByte font a = 0 :=
  dif_neg (by omega)

theorem readV_doReset (s : State) (r : RegIdx) : s.doReset.readV r = 0 := Vector.getElem_replicate r.isLt

theorem stack_doReset (s : State) (k : Fin 16) : s.doReset.stack[k] = 0 := Vector.getElem_replicate k.isLt

theorem readByte_doReset (s : State) {a : Word} (ha : a.toNat < 0x1000) :
    s.doReset.readByte a = unlistedByte s.params.font a.toNat := by
  rw [State.readByte, maskAddr_of_lt a ha]
  rfl

/-- Nothing is listed, so every address reads as its reset contents. -/
theorem resetWith_lowIntact (p : Params) : (State.resetWith p).LowIntact := fun _ _ => rfl

theorem loadInfo_toNat {len : Nat} (h : len < 0x10000) : (loadInfo len).toNat = len := by
  rw [loadInfo, if_pos h]
  exact Nat.mod_eq_of_lt h

section
variable {s : State} {bytes : List Byte}

theorem doLoad_of_wellFormedLength (h : wellFormedLength bytes.length = true) :
    s.doLoad (.image bytes) = { s.pokeBytes 0x200 bytes with romLen := bytes.length } := if_pos h

theorem doLoad_of_unreadable (declared : Nat) : s.doLoad (.unreadable declared) = s.failLoad .unreadable declared := rfl

theorem doLoad_of_empty : s.doLoad (.image []) = s.failLoad .empty 0 := rfl

theorem doLoad_of_oversized (h : maxRom < bytes.length) :
    s.doLoad (.image bytes) = s.failLoad .oversized bytes.length := by
  have hlen : ¬ wellFormedLength bytes.length = true := fun hw => Nat.not_le_of_lt h (of_decide_eq_true hw).2
  have hne : ¬ bytes.isEmpty = true := by
    rw [List.isEmpty_iff_length_eq_zero]
    omega
  exact (if_neg hlen).trans (if_neg hne)

end

/-- The k-th byte of an image lies at 0x200 + k. -/
theorem readByte_image (s : State) {bytes : List Byte} {k : Nat} {b : Byte} (hw : Memory.wf s.params.font s.mem = true)
    (hlen : bytes.length ≤ maxRom) (hk : bytes[k]? = some b) :
    (s.pokeBytes 0x200 bytes).readByte (BitVec.ofNat 16 (0x200 + k)) = b := by
  obtain ⟨hlt, rfl⟩ := List.getElem?_eq_some_iff.mp hk
  rw [BitVec.ofNat_add]
  exact pokeBytes_read_target hw (hlen.trans (by decide)) hlt

/-- Below and above an image memory reads as before. -/
theorem readByte_outside_image (s : State) {a : Word} {bytes : List Byte} (hlen : bytes.length ≤ maxRom)
    (ha : a.toNat < 0x1000) (hout : a.toNat < 0x200 ∨ 0x200 + bytes.length ≤ a.toNat) :
    (s.pokeBytes 0x200 bytes).readByte a = s.readByte a := by
  refine pokeBytes_read_other fun k hk he => ?_
  have htarget := congrArg BitVec.toNat he
  rw [maskAddr_of_lt a ha, maskAddr_toNat, BitVec.toNat_add, BitVec.toNat_ofNat,
    show (0x200 : Word).toNat = 0x200 from rfl] at htarget
  unfold maxRom at hlen
  omega

section
variable {s : State} {src : LoadSource} {later : List HostStep}

theorem step_reset (hsched : s.schedule = .reset :: later) : step s = .next { s with schedule := later }.doReset :=
  step_cons hsched

/-- A load that is the first step after reset is carried out (R272). -/
theorem step_load_of_justReset (hsched : s.schedule = .load src :: later) (hreset : s.justReset = true) :
    step s = .next ((s.after later).doLoad src) := by
  rw [step_cons hsched]
  exact if_pos hreset

/-- A later load is refused (R272, R275). -/
theorem step_load_of_not_justReset (hsched : s.schedule = .load src :: later) (hreset : s.justReset = false) :
    step s = .refused .loadNotAfterReset := by
  rw [step_cons hsched]
  exact if_neg (by simp [hreset])

end

theorem cycle_answers_next (s : State) (keys : Keys) (rnd : Option Byte) : ∃ t, cycle s keys rnd = .next t := by
  obtain ⟨_, hc⟩ | ⟨_, _, hc⟩ | ⟨i, _, _, _, hc⟩ | ⟨_, _, _, _, hc⟩ := cycle_cases s keys rnd
  · exact ⟨_, hc⟩
  · exact ⟨_, hc⟩
  · obtain ⟨t, ht, _⟩ := exec_effect i (s.sample keys rnd)
    exact ⟨t.endCycle, by rw [hc, ht]; rfl⟩
  · exact ⟨_, hc⟩

end Sys2Proof.Machine
end

section
/-! Family 70_reset_and_hazards.md: the reset, and the load that is admitted, that fails or that is refused. -/

namespace Sys2Proof.Machine

/-- Settles O57: the reset state's numbers are in range and its memory lists nothing. -/
theorem resetMeetsInvariant : Obligations.ResetMeetsInvariant :=
  fun p => ⟨resetWith_inv p, resetWith_lowIntact p⟩

/-- Settles O8: a cycle, a tick, a display read and a reset always answer, and a load answers by justReset. -/
theorem onlyLateLoadIsRefused : Obligations.OnlyLateLoadIsRefused := by
  intro s
  constructor
  · rintro ⟨⟨src, later, hsched⟩, hreset⟩
    exact step_load_of_not_justReset hsched hreset
  · intro hlate
    cases hsched : s.schedule with
    | nil =>
      rw [step_nil hsched]
      exact cycle_answers_next s.stepTaken s.keys none
    | cons req later =>
      cases req with
      | cycle keys rnd =>
        rw [step_cons hsched]
        exact cycle_answers_next (s.after later) keys rnd
      | tick | dispRead | reset => exact ⟨_, step_cons hsched⟩
      | load src =>
        have hreset : s.justReset = true := by
          by_contra hne
          exact hlate ⟨⟨src, later, hsched⟩, Bool.eq_false_of_not_eq_true hne⟩
        exact ⟨_, step_load_of_justReset hsched hreset⟩

/-- Settles O54: the registers are the reset state's, and memory reads as its reset contents. -/
theorem resetLeavesAnyState : Obligations.ResetLeavesAnyState := by
  intro s later hsched
  refine ⟨_, step_reset hsched, readV_doReset _, rfl, rfl, rfl, stack_doReset _, rfl, rfl,
    fun i _ => dispCell_dispClear i, rfl, rfl, rfl, rfl, rfl, rfl, fun g r hg hr => ?_, fun a ha hout => ?_⟩
  · have haddr : (BitVec.ofNat 16 (0x050 + 5 * g + r)).toNat = 0x050 + 5 * g + r := Nat.mod_eq_of_lt (by omega)
    rw [readByte_doReset _ (by omega), haddr]
    exact unlistedByte_glyph s.params.font hg hr
  · rw [readByte_doReset _ ha]
    exact unlistedByte_outside_font s.params.font hout

/-- Settles O55: the load is the copy of the image, and the copy writes memory alone. -/
theorem loadCopiesImage : Obligations.LoadCopiesImage := by
  intro s bytes later hw hreset hsched hmin hmax
  have hload := doLoad_of_wellFormedLength (s := s.after later) (decide_eq_true ⟨hmin, hmax⟩)
  refine ⟨_, (step_load_of_justReset hsched hreset).trans (congrArg _ hload),
    fun k b hk => readByte_image (s.after later) hw hmax hk,
    fun a ha hout => readByte_outside_image (s.after later) hmax ha hout, rfl, ?_⟩
  rw [pokeBytes_eq]

/-- Settles O56: each of the three causes ends in failLoad with its length. -/
theorem loadErrorWritesNothing : Obligations.LoadErrorWritesNothing := by
  intro s src len later hreset hsched hbad
  have hstep := step_load_of_justReset hsched hreset
  obtain rfl | ⟨bytes, rfl, rfl, hzero | hover⟩ := hbad
  · rw [doLoad_of_unreadable] at hstep
    exact ⟨_, loadInfo len, .unreadable, hstep, loadInfo_toNat, by simp, by simp, rfl⟩
  · obtain rfl := List.eq_nil_of_length_eq_zero hzero
    rw [doLoad_of_empty] at hstep
    exact ⟨_, loadInfo 0, .empty, hstep, loadInfo_toNat, by simp, by simp, rfl⟩
  · have hne : bytes ≠ [] := List.ne_nil_of_length_pos (by omega)
    rw [doLoad_of_oversized hover] at hstep
    exact ⟨_, loadInfo bytes.length, .oversized, hstep, loadInfo_toNat, by simp, by simp [hne], rfl⟩

end Sys2Proof.Machine
end
